-- ==== Sys2Proof/Word.lean ====
section
/-! DEFINITION. The widths of the values the spec gives the machine (spec/00_scope.md R8, R12): every value is
unsigned, and a register index names one of sixteen registers. -/

namespace Sys2Proof

/-- A memory byte or the content of a general register (R8: 8 bits). -/
abbrev Byte := BitVec 8

/-- An instruction word, the pc, the index register or a stacked return address (R8: 16 bits). -/
abbrev Word := BitVec 16

/-- An absolute address as an instruction holds it, `nnn` (spec/30_encoding.md R71: 12 bits). -/
abbrev Addr12 := BitVec 12

/-- The number of a general register, V0 to VF (spec/10_state.md R21). -/
abbrev Reg := Fin 16

/-- The number of a key of the keypad, 0 to 15 (spec/10_state.md R34). -/
abbrev Key := Fin 16

/-- VF, the register that also receives flags (spec/10_state.md R22). -/
abbrev VF : Reg := 15

end Sys2Proof
end

