-- ==== Sys2Proof/Syntax.lean ====
section
/-! DEFINITION. The 34 instructions of spec/opcode_table.json, one constructor a row, in the order of
spec/30_encoding.md R73. Operands have exactly the width of their fields (R71, R72), so every term is an instruction
(R78: every value of every field is legal). -/

namespace Sys2Proof

/-- The instructions of R73. `x` and `y` are registers, `nn` an 8-bit immediate, `nnn` a 12-bit address, `n` a row
count from 0 to 15. -/
inductive Instr where
  /-- 00E0, CLS: clear the display (R170). -/
  | cls
  /-- 00EE, RET: pop pc (R110). -/
  | ret
  /-- 1NNN, JP nnn (R111). -/
  | jp (nnn : Addr12)
  /-- 2NNN, CALL nnn (R112). -/
  | call (nnn : Addr12)
  /-- 3XNN, SE Vx, nn (R113). -/
  | seImm (x : Reg) (nn : Byte)
  /-- 4XNN, SNE Vx, nn (R114). -/
  | sneImm (x : Reg) (nn : Byte)
  /-- 5XY0, SE Vx, Vy (R115). -/
  | seReg (x y : Reg)
  /-- 6XNN, LD Vx, nn (R130). -/
  | ldImm (x : Reg) (nn : Byte)
  /-- 7XNN, ADD Vx, nn (R131). -/
  | addImm (x : Reg) (nn : Byte)
  /-- 8XY0, LD Vx, Vy (R132). -/
  | ldReg (x y : Reg)
  /-- 8XY1, OR Vx, Vy (R133). -/
  | orReg (x y : Reg)
  /-- 8XY2, AND Vx, Vy (R134). -/
  | andReg (x y : Reg)
  /-- 8XY3, XOR Vx, Vy (R135). -/
  | xorReg (x y : Reg)
  /-- 8XY4, ADD Vx, Vy (R136). -/
  | addReg (x y : Reg)
  /-- 8XY5, SUB Vx, Vy (R137). -/
  | subReg (x y : Reg)
  /-- 8XY6, SHR Vx, Vy (R138). -/
  | shr (x y : Reg)
  /-- 8XY7, SUBN Vx, Vy (R139). -/
  | subn (x y : Reg)
  /-- 8XYE, SHL Vx, Vy (R140). -/
  | shl (x y : Reg)
  /-- 9XY0, SNE Vx, Vy (R116). -/
  | sneReg (x y : Reg)
  /-- ANNN, LD I, nnn (R150). -/
  | ldI (nnn : Addr12)
  /-- BNNN, JP V0, nnn (R117). -/
  | jpV0 (nnn : Addr12)
  /-- CXNN, RND Vx, nn (R141). -/
  | rnd (x : Reg) (nn : Byte)
  /-- DXYN, DRW Vx, Vy, n (R171). -/
  | drw (x y : Reg) (n : Fin 16)
  /-- EX9E, SKP Vx (R185). -/
  | skp (x : Reg)
  /-- EXA1, SKNP Vx (R186). -/
  | sknp (x : Reg)
  /-- FX07, LD Vx, DT (R187). -/
  | ldVxDT (x : Reg)
  /-- FX0A, LD Vx, K (R190). -/
  | ldVxK (x : Reg)
  /-- FX15, LD DT, Vx (R188). -/
  | ldDTVx (x : Reg)
  /-- FX18, LD ST, Vx (R189). -/
  | ldSTVx (x : Reg)
  /-- FX1E, ADD I, Vx (R151). -/
  | addI (x : Reg)
  /-- FX29, LD F, Vx (R152). -/
  | ldF (x : Reg)
  /-- FX33, LD B, Vx (R153). -/
  | ldB (x : Reg)
  /-- FX55, LD [I], Vx (R154). -/
  | ldMemVx (x : Reg)
  /-- FX65, LD Vx, [I] (R155). -/
  | ldVxMem (x : Reg)
deriving DecidableEq, Repr

end Sys2Proof
end

