-- ==== Sys2Proof/Decode.lean ====
section
/-! DEFINITION. From words to instructions and back (spec/30_encoding.md). The decoder splits a word into the fields
of R71 and is total: a word that is no instruction is refused by name (R74, R80). The encoder is written from the
patterns of R73. -/

namespace Sys2Proof

/-! ## The fields of a word (R71) -/

/-- `w[hi:lo]`, the unsigned value of bits `hi` down to `lo` (spec/00_scope.md R11). -/
def bits (w : Word) (hi lo : Nat) : Nat := w.toNat / 2 ^ lo % 2 ^ (hi - lo + 1)

/-- The opcode class, `w[15:12]`. -/
def fieldOp (w : Word) : Nat := bits w 15 12

/-- `x = w[11:8]`. -/
def fieldX (w : Word) : Reg := ⟨bits w 11 8, Nat.mod_lt _ (by decide)⟩

/-- `y = w[7:4]`. -/
def fieldY (w : Word) : Reg := ⟨bits w 7 4, Nat.mod_lt _ (by decide)⟩

/-- `n = w[3:0]`. -/
def fieldN (w : Word) : Fin 16 := ⟨bits w 3 0, Nat.mod_lt _ (by decide)⟩

/-- `nn = w[7:0]`. -/
def fieldNN (w : Word) : Byte := BitVec.ofNat 8 (bits w 7 0)

/-- `nnn = w[11:0]`. -/
def fieldNNN (w : Word) : Addr12 := BitVec.ofNat 12 (bits w 11 0)

/-! ## The decoder -/

/-- Class 8: the low nibble selects the operation (R73 rows 10 to 18, R74). -/
def decodeClass8 (w : Word) : Option Instr :=
  match bits w 3 0 with
  | 0x0 => some (.ldReg (fieldX w) (fieldY w))
  | 0x1 => some (.orReg (fieldX w) (fieldY w))
  | 0x2 => some (.andReg (fieldX w) (fieldY w))
  | 0x3 => some (.xorReg (fieldX w) (fieldY w))
  | 0x4 => some (.addReg (fieldX w) (fieldY w))
  | 0x5 => some (.subReg (fieldX w) (fieldY w))
  | 0x6 => some (.shr (fieldX w) (fieldY w))
  | 0x7 => some (.subn (fieldX w) (fieldY w))
  | 0xE => some (.shl (fieldX w) (fieldY w))
  | _ => none

/-- Class E: the low byte selects the operation (R73 rows 24 and 25, R74). -/
def decodeClassE (w : Word) : Option Instr :=
  match bits w 7 0 with
  | 0x9E => some (.skp (fieldX w))
  | 0xA1 => some (.sknp (fieldX w))
  | _ => none

/-- Class F: the low byte selects the operation (R73 rows 26 to 34, R74). -/
def decodeClassF (w : Word) : Option Instr :=
  match bits w 7 0 with
  | 0x07 => some (.ldVxDT (fieldX w))
  | 0x0A => some (.ldVxK (fieldX w))
  | 0x15 => some (.ldDTVx (fieldX w))
  | 0x18 => some (.ldSTVx (fieldX w))
  | 0x1E => some (.addI (fieldX w))
  | 0x29 => some (.ldF (fieldX w))
  | 0x33 => some (.ldB (fieldX w))
  | 0x55 => some (.ldMemVx (fieldX w))
  | 0x65 => some (.ldVxMem (fieldX w))
  | _ => none

/-- The instruction a word is, or `none` where it matches no row of R73 (spec/40_cycle.md R95, R96). Classes 5 and 9
ask for a low nibble of 0 (R77; UNVERIFIED, safe; log entry 8). -/
def decodeWord (w : Word) : Option Instr :=
  match fieldOp w with
  | 0x0 => if w = 0x00E0 then some .cls else if w = 0x00EE then some .ret else none
  | 0x1 => some (.jp (fieldNNN w))
  | 0x2 => some (.call (fieldNNN w))
  | 0x3 => some (.seImm (fieldX w) (fieldNN w))
  | 0x4 => some (.sneImm (fieldX w) (fieldNN w))
  | 0x5 => if bits w 3 0 = 0 then some (.seReg (fieldX w) (fieldY w)) else none
  | 0x6 => some (.ldImm (fieldX w) (fieldNN w))
  | 0x7 => some (.addImm (fieldX w) (fieldNN w))
  | 0x8 => decodeClass8 w
  | 0x9 => if bits w 3 0 = 0 then some (.sneReg (fieldX w) (fieldY w)) else none
  | 0xA => some (.ldI (fieldNNN w))
  | 0xB => some (.jpV0 (fieldNNN w))
  | 0xC => some (.rnd (fieldX w) (fieldNN w))
  | 0xD => some (.drw (fieldX w) (fieldY w) (fieldN w))
  | 0xE => decodeClassE w
  | 0xF => decodeClassF w
  | _ => none

/-- Why bytes are no instruction: too few of them, or a word that matches no row (R70, R74). -/
inductive DecodeError where
  /-- Fewer than two bytes: an instruction is exactly two (R81). -/
  | truncated
  /-- The word matches no row of R73; executing it raises UnknownInstruction (R74). -/
  | unknownInstruction (w : Word)
deriving DecidableEq, Repr

/-- The 16-bit word of two bytes, the byte at the lower address in bits 15 to 8 (R70, spec/20_memory.md R51). -/
def composeWord (high low : Byte) : Word := BitVec.ofNat 16 (high.toNat * 0x100 + low.toNat)

/-- The two bytes of a word, in the order memory holds them (R70). -/
def wordBytes (w : Word) : Byte × Byte := (BitVec.ofNat 8 (bits w 15 8), BitVec.ofNat 8 (bits w 7 0))

/-- Decode the instruction at the front of a list of bytes: always exactly two bytes (R70, R81), and the rest. -/
def decode : List Byte → Except DecodeError (Instr × List Byte)
  | high :: low :: rest =>
    match decodeWord (composeWord high low) with
    | some i => .ok (i, rest)
    | none => .error (.unknownInstruction (composeWord high low))
  | _ => .error .truncated

/-! ## The encoder -/

/-- A word of the form op.x.nn (R71). -/
def wordXNN (op : Nat) (x : Reg) (nn : Byte) : Word := BitVec.ofNat 16 (op * 0x1000 + x.val * 0x100 + nn.toNat)

/-- A word of the form op.x.y.n (R71). -/
def wordXYN (op : Nat) (x y : Reg) (n : Nat) : Word :=
  BitVec.ofNat 16 (op * 0x1000 + x.val * 0x100 + y.val * 0x10 + n)

/-- A word of the form op.nnn (R71). -/
def wordNNN (op : Nat) (nnn : Addr12) : Word := BitVec.ofNat 16 (op * 0x1000 + nnn.toNat)

/-- The word of an instruction, from the patterns of R73. -/
def encode : Instr → Word
  | .cls => 0x00E0
  | .ret => 0x00EE
  | .jp nnn => wordNNN 0x1 nnn
  | .call nnn => wordNNN 0x2 nnn
  | .seImm x nn => wordXNN 0x3 x nn
  | .sneImm x nn => wordXNN 0x4 x nn
  | .seReg x y => wordXYN 0x5 x y 0x0
  | .ldImm x nn => wordXNN 0x6 x nn
  | .addImm x nn => wordXNN 0x7 x nn
  | .ldReg x y => wordXYN 0x8 x y 0x0
  | .orReg x y => wordXYN 0x8 x y 0x1
  | .andReg x y => wordXYN 0x8 x y 0x2
  | .xorReg x y => wordXYN 0x8 x y 0x3
  | .addReg x y => wordXYN 0x8 x y 0x4
  | .subReg x y => wordXYN 0x8 x y 0x5
  | .shr x y => wordXYN 0x8 x y 0x6
  | .subn x y => wordXYN 0x8 x y 0x7
  | .shl x y => wordXYN 0x8 x y 0xE
  | .sneReg x y => wordXYN 0x9 x y 0x0
  | .ldI nnn => wordNNN 0xA nnn
  | .jpV0 nnn => wordNNN 0xB nnn
  | .rnd x nn => wordXNN 0xC x nn
  | .drw x y n => wordXYN 0xD x y n.val
  | .skp x => wordXNN 0xE x 0x9E
  | .sknp x => wordXNN 0xE x 0xA1
  | .ldVxDT x => wordXNN 0xF x 0x07
  | .ldVxK x => wordXNN 0xF x 0x0A
  | .ldDTVx x => wordXNN 0xF x 0x15
  | .ldSTVx x => wordXNN 0xF x 0x18
  | .addI x => wordXNN 0xF x 0x1E
  | .ldF x => wordXNN 0xF x 0x29
  | .ldB x => wordXNN 0xF x 0x33
  | .ldMemVx x => wordXNN 0xF x 0x55
  | .ldVxMem x => wordXNN 0xF x 0x65

/-! ## The table's numbering -/

/-- The word of a row of spec/opcode_table.json: `nbits` bits of `w`, and zeros above them. One word a row (R70), so
bit 0 of the table is bit 0 of the word. -/
def tableWord (nbits w : Nat) : Word := BitVec.ofNat 16 (w % 2 ^ nbits)

/-- The instruction the decoder reads from the bytes of a table row's word, laid out as memory holds them. -/
def decodeTableWord (nbits w : Nat) : Option Instr :=
  match decode [(wordBytes (tableWord nbits w)).1, (wordBytes (tableWord nbits w)).2] with
  | .ok (i, _) => some i
  | .error _ => none

end Sys2Proof
end

