-- ==== Sys2Proof/Config.lean ====
section
/-! DEFINITION. What the spec leaves open (spec/00_scope.md R9): the two configuration parameters, the record of
inputs a cycle receives, and the free inputs, which have no body. -/

namespace Sys2Proof

/-- The configuration parameters of R9. A machine's `Config` is fixed: no step changes it. -/
structure Config where
  /-- `FONT`: the 80 bytes of the 16 glyphs (spec/70_reset_and_hazards.md R232, decision D5). -/
  font : Vector Byte 80
  /-- `FX1E_CLEARS_VF`: whether FX1E without overflow writes 0 into VF (spec/43_index_memory.md R151, decision D12). -/
  fx1eClearsVF : Bool
deriving DecidableEq, Repr

/-- The inputs the host supplies with one call of `advance` (R9). -/
structure CycleInput where
  /-- `in.tick`: the timers tick in this cycle (spec/60_exceptions.md R212, decision D2). -/
  tick : Bool
  /-- `in.keys`: the pressed keys, in the host's order (spec/10_state.md R34, decision D4). -/
  keys : List Key
  /-- `in.rand`: the random byte CXNN takes (spec/42_alu.md R141, decision D3). -/
  rand : Byte
deriving DecidableEq, Repr, Inhabited

/-- The inputs of the cycle numbered by the argument, where no call of the host is written down for it: a FREE VALUE
(DESIGN CHOICE, safe; log entry 2). It has no body, so a claim that holds, holds for every sequence of ticks, keys
and random bytes. -/
opaque Config.freeInput : Nat → CycleInput

end Sys2Proof
end

