-- ==== Sys2Proof/Machine/Memory.lean ====
section
/-! DEFINITION. The one memory of the core (spec/20_memory.md): 4096 bytes, kept as the list of those that differ
from what the load leaves. The default font and the address map stand here too. -/

namespace Sys2Proof.Machine

/-! ## The address map (R59) -/

/-- How many bytes the memory has (R50). -/
def memSize : Nat := 0x1000

/-- The first address of the font region (R59). -/
def fontBase : Nat := 0x050

/-- The first address after the font region, 16 glyphs of 5 bytes (R59). -/
def fontEnd : Nat := 0x0A0

/-- Where a program image is loaded, and the entry point (R59, spec/70_reset_and_hazards.md R234). -/
def programBase : Nat := 0x200

/-- Whether an address lies in the font region 0x050 to 0x09F (R53). -/
def inFont (a : Nat) : Bool := decide (fontBase ≤ a) && decide (a < fontEnd)

/-- The default of the parameter FONT, the table of spec/70_reset_and_hazards.md R232 (PRESUMED, unsafe; log
entry 4: the spec marks these bytes as general knowledge). -/
def defaultFont : Vector Byte 80 :=
  #v[0xF0, 0x90, 0x90, 0x90, 0xF0, 0x20, 0x60, 0x20, 0x20, 0x70, 0xF0, 0x10, 0xF0, 0x80, 0xF0, 0xF0, 0x10, 0xF0,
     0x10, 0xF0,
     0x90, 0x90, 0xF0, 0x10, 0x10, 0xF0, 0x80, 0xF0, 0x10, 0xF0, 0xF0, 0x80, 0xF0, 0x90, 0xF0, 0xF0, 0x10, 0x20,
     0x40, 0x40,
     0xF0, 0x90, 0xF0, 0x90, 0xF0, 0xF0, 0x90, 0xF0, 0x10, 0xF0, 0xF0, 0x90, 0xF0, 0x90, 0x90, 0xE0, 0x90, 0xE0,
     0x90, 0xE0,
     0xF0, 0x80, 0x80, 0x80, 0xF0, 0xE0, 0x90, 0x90, 0x90, 0xE0, 0xF0, 0x80, 0xF0, 0x80, 0xF0, 0xF0, 0x80, 0xF0,
     0x80, 0x80]

/-- The parameters' defaults: FONT as in R232 (log entry 4), FX1E_CLEARS_VF false (spec/00_scope.md R9; DESIGN CHOICE,
unsafe; log entry 5). -/
def defaultConfig : Config := ⟨defaultFont, false⟩

/-! ## The memory as plain data -/

/-- The bytes that differ from `unlisted`, by rising address. -/
abbrev Memory := List Host.Cell

/-- What an address that is not listed reads as: the byte the load leaves there (spec/70_reset_and_hazards.md R230,
R231), FONT in the font region and 0 elsewhere (decision D6 of the spec; UNVERIFIED, unsafe; log entry 7). -/
def unlisted (font : Vector Byte 80) (a : Nat) : Byte :=
  if inFont a then font.getD (a - fontBase) 0 else 0

/-- The byte listed for an address, if one is. -/
def Memory.lookup : Memory → Nat → Option Byte
  | [], _ => none
  | (k, v) :: rest, a => if a = k then some v else Memory.lookup rest a

/-- `M[a]` (R50). -/
def Memory.read (font : Vector Byte 80) (m : Memory) (a : Nat) : Byte :=
  (Memory.lookup m a).getD (unlisted font a)

/-- `M[a] <- b` (R53), keeping the list canonical. -/
def Memory.write (font : Vector Byte 80) : Memory → Nat → Byte → Memory
  | [], a, b => if b = unlisted font a then [] else [(a, b)]
  | (k, v) :: rest, a, b =>
    if a < k then
      if b = unlisted font a then (k, v) :: rest else (a, b) :: (k, v) :: rest
    else if a = k then
      if b = unlisted font a then rest else (a, b) :: rest
    else (k, v) :: Memory.write font rest a b

/-- Store bytes at rising addresses from `base` on. -/
def Memory.writeBytes (font : Vector Byte 80) : Memory → Nat → List Byte → Memory
  | m, _, [] => m
  | m, base, b :: rest => Memory.writeBytes font (Memory.write font m base b) (base + 1) rest

/-- Read `count` bytes at rising addresses from `base` on. -/
def Memory.readBytes (font : Vector Byte 80) (m : Memory) : Nat → Nat → List Byte
  | _, 0 => []
  | base, count + 1 => Memory.read font m base :: Memory.readBytes font m (base + 1) count

/-- Addresses strictly rise and none is below `low`. -/
def Memory.risingFrom : Nat → Memory → Bool
  | _, [] => true
  | low, (k, _) :: rest => decide (low ≤ k) && Memory.risingFrom (k + 1) rest

/-- The canonical form: addresses strictly rising, all of them in memory, no entry equal to what its address reads as
when unlisted. Two canonical memories that read alike are the same list. -/
def Memory.wf (font : Vector Byte 80) (m : Memory) : Bool :=
  Memory.risingFrom 0 m && m.all fun c => decide (c.1 < memSize) && c.2 != unlisted font c.1

end Sys2Proof.Machine
end

