-- ==== Sys2Proof/Machine/State.lean ====
section
/-! DEFINITION. The state of the core (spec/10_state.md R20), the errors that stop it (spec/60_exceptions.md), and the
state after reset, which on this core is the load (spec/70_reset_and_hazards.md R230, R231). -/

namespace Sys2Proof.Machine

/-! ## Errors -/

/-- The errors of a running core (spec/60_exceptions.md R200, R202). -/
inductive CycleError where
  /-- The fetch does not fit in memory: pc + 2 > 4096. -/
  | outOfBounds
  /-- The fetched word matches no instruction. -/
  | unknownInstruction
  /-- 2NNN with SP = 16. -/
  | stackOverflow
  /-- A data address above 0xFFF (DXYN, FX33, FX55, FX65). -/
  | dataOutOfBounds
  /-- A write into 0x050 to 0x09F (FX33, FX55). -/
  | fontWrite
deriving DecidableEq, Repr

/-- The errors of the load (spec/60_exceptions.md R200, R202): no state is created. -/
inductive LoadError where
  /-- The image has length 0. -/
  | emptyProgram
  /-- The image is longer than 3584 bytes. -/
  | romTooLarge
deriving DecidableEq, Repr

/-- What an error records (spec/60_exceptions.md R201). -/
structure ErrorInfo where
  /-- The value pc had at the start of the cycle. -/
  addr : Word
  /-- The fetched word; absent for OutOfBounds. -/
  word : Option Word
  /-- The failing data address, for DataOutOfBounds and FontWrite; absent otherwise. -/
  detail : Option Nat
deriving DecidableEq, Repr

/-- Whether the core runs or an error has halted it (spec/10_state.md R36). -/
inductive Status where
  | running
  | halted (e : CycleError) (info : ErrorInfo)
deriving DecidableEq, Repr

/-! ## The state -/

/-- The display buffer: 32 rows of 64 pixels, true is lit (spec/10_state.md R33). -/
abbrev Display := Vector (Vector Bool 64) 32

/-- The state of the core, component by component of spec/10_state.md R20, and after them four fields that are the
MODEL'S OWN, because a step takes no other argument: the configuration, which no step changes, and the inputs of the
coming cycles (log entries 2, 4 and 5). -/
structure State where
  /-- V0 to VF (R21, R22). -/
  v : Vector Byte 16
  /-- The index register I (R29). -/
  idx : Word
  /-- The program counter (R25, R26). -/
  pc : Word
  /-- The call stack (R27). -/
  stack : Vector Word 16
  /-- The stack pointer SP, the number of occupied entries (R28). -/
  sp : Fin 17
  /-- The delay timer DT (R30). -/
  dt : Byte
  /-- The sound timer ST (R31). -/
  st : Byte
  /-- The display buffer (R33). -/
  disp : Display
  /-- The memory M (R35). -/
  mem : Memory
  /-- Running or halted (R36). -/
  status : Status
  /-- Model's own: the parameters FONT and FX1E_CLEARS_VF (spec/00_scope.md R9). -/
  config : Config
  /-- Model's own: the inputs of the coming cycles that are written down, the next cycle's first (R9). -/
  inputs : List CycleInput
  /-- Model's own: which free input a cycle takes when `inputs` is empty. -/
  cycle : Nat
deriving DecidableEq, Repr

/-! ## How a step can stop -/

/-- A cycle that ends in an error (spec/60_exceptions.md R203): the core halts and the host receives the error. Each
constructor carries the state the error leaves, whose `status` is `halted` with the error's record (R201, R204). All
five are safe: the spec's own errors, and nothing runs after one (DESIGN CHOICE of the form; log entry 3). -/
inductive Fault where
  /-- Raised by the fetch when pc + 2 > 4096 (spec/40_cycle.md R93). Safe: the spec's own error. -/
  | outOfBounds (left : State)
  /-- Raised after the fetch of a word that matches no instruction (spec/40_cycle.md R96). Safe: the spec's own error;
  for classes 5 and 9 by its decision D8. -/
  | unknownInstruction (left : State)
  /-- Raised by 2NNN on a full call stack (spec/41_control_flow.md R112). Safe: the spec's own error. -/
  | stackOverflow (left : State)
  /-- Raised by DXYN, FX33, FX55 and FX65 for an address above 0xFFF (spec/20_memory.md R52 to R54). Safe: the spec's
  own error, by its decision D10. -/
  | dataOutOfBounds (left : State)
  /-- Raised by FX33 and FX55 for an address in the font region (spec/20_memory.md R53, R54). Safe: the spec's own
  error, by its decision D11. -/
  | fontWrite (left : State)
deriving DecidableEq, Repr

/-- Why an instruction has no meaning. -/
inductive Refusal where
  /-- Answered by an arm of `exec` whose instruction is not modelled yet. Safe. No arm answers it now. -/
  | notModelled (mnemonic : String)
deriving DecidableEq, Repr

/-! ## Reset -/

/-- Every pixel unlit (spec/70_reset_and_hazards.md R230). -/
def Display.blank : Display := Vector.replicate 32 (Vector.replicate 64 false)

/-- The state after a load, before the image's bytes (spec/70_reset_and_hazards.md R230, R231): pc at 0x200, the
display blank, everything else 0 (decisions D6 and D7 of the spec; UNVERIFIED, unsafe; log entries 6 and 7), for a
given configuration. -/
def State.initial (c : Config) : State where
  v := Vector.replicate 16 0
  idx := 0
  pc := BitVec.ofNat 16 programBase
  stack := Vector.replicate 16 0
  sp := 0
  dt := 0
  st := 0
  disp := Display.blank
  mem := []
  status := .running
  config := c
  inputs := []
  cycle := 0

/-- The machine right after reset: the state after a load, with no program in memory (log entry 1) and the parameters
at their defaults (log entries 4 and 5). -/
def State.reset : State := State.initial defaultConfig

end Sys2Proof.Machine
end

