-- ==== Sys2Proof/Machine/Operands.lean ====
section
/-! DEFINITION. The operand forms (spec/30_encoding.md R72) and the addresses an instruction computes from them: all
unsigned, nothing sign-extended, scaled or shifted. -/

namespace Sys2Proof.Machine

/-- `zext_16` of a byte (spec/00_scope.md R12). -/
def zextByte (b : Byte) : Word := BitVec.ofNat 16 b.toNat

/-- `zext_16(nnn)` (spec/30_encoding.md R72). -/
def zextAddr (nnn : Addr12) : Word := BitVec.ofNat 16 nnn.toNat

/-- `V[x]` (spec/00_scope.md R13). -/
def State.reg (s : State) (x : Reg) : Byte := s.v.get x

/-- `V[x] <- b` (spec/00_scope.md R13). No register is hardwired (spec/10_state.md R21). -/
def State.setReg (s : State) (x : Reg) (b : Byte) : State := { s with v := s.v.set x.val b x.isLt }

/-- The values of V0 to Vx, lowest number first (FX55, spec/43_index_memory.md R154). -/
def State.regsTo (s : State) (x : Reg) : List Byte := s.v.toList.take (x.val + 1)

/-- `V[k] <- b[k]` for the bytes of a list, from register `k` on (FX65, spec/43_index_memory.md R155). -/
def setRegsFrom : Vector Byte 16 → Nat → List Byte → Vector Byte 16
  | v, _, [] => v
  | v, k, b :: rest => setRegsFrom (v.setIfInBounds k b) (k + 1) rest

/-- The first data address, I + 0: addresses are I + k, computed without wrap (spec/43_index_memory.md R156). -/
def State.dataBase (s : State) : Nat := s.idx.toNat

/-- The target of BNNN: NNN + V0, a 16-bit sum that does not wrap (spec/41_control_flow.md R117, decision D9). -/
def State.offsetTarget (s : State) (nnn : Addr12) : Word := zextAddr nnn + zextByte (s.reg 0)

/-- The address of the glyph of the low nibble of a byte (FX29, spec/43_index_memory.md R152). -/
def glyphAddress (b : Byte) : Word := BitVec.ofNat 16 (fontBase + 5 * (b.toNat % 0x10))

/-- The three decimal digits of a byte, hundreds first (FX33, spec/43_index_memory.md R153). -/
def bcdDigits (b : Byte) : List Byte :=
  [BitVec.ofNat 8 (b.toNat / 100), BitVec.ofNat 8 (b.toNat / 10 % 10), BitVec.ofNat 8 (b.toNat % 10)]

/-- The inputs of this cycle (spec/40_cycle.md R90): the host's, where they are written down, else free (log entry 2). -/
def State.input (s : State) : CycleInput := s.inputs.headD (Config.freeInput s.cycle)

/-- Whether the byte is the number of a pressed key: the whole byte is compared, so a value above 15 never is
(spec/45_keypad_timers.md R185, R186). -/
def keyPressed (keys : List Key) (b : Byte) : Bool := keys.any fun k => decide (k.val = b.toNat)

end Sys2Proof.Machine
end

