-- ==== Sys2Proof/Machine/Flags.lean ====
section
/-! DEFINITION. Results and flags of the 8-bit ALU (spec/42_alu.md R142): operands are read as natural numbers, the
exact result is computed, and narrowed at the end. The only flag is VF (spec/10_state.md R32). -/

namespace Sys2Proof.Machine

/-- A flag as the byte VF receives: 1 or 0. -/
def flagByte (f : Bool) : Byte := if f then 1 else 0

/-- `trunc_8(a + b)` (R131, R136). -/
def sum8 (a b : Byte) : Byte := BitVec.ofNat 8 (a.toNat + b.toNat)

/-- Whether the 9-bit sum exceeds 255 (R136). -/
def carryOut (a b : Byte) : Bool := decide (255 < a.toNat + b.toNat)

/-- `(a + 256 - b) mod 256` (R137, R139). -/
def diff8 (a b : Byte) : Byte := BitVec.ofNat 8 (a.toNat + 256 - b.toNat)

/-- Whether `a - b` needs no borrow: `a >= b` (R137, R139). -/
def noBorrow (a b : Byte) : Bool := decide (b.toNat ≤ a.toNat)

/-- `b >> 1` (R138). -/
def shiftRight1 (b : Byte) : Byte := BitVec.ofNat 8 (b.toNat / 2)

/-- The bit a right shift puts out: bit 0 (R138). -/
def lowBit (b : Byte) : Bool := decide (b.toNat % 2 = 1)

/-- `trunc_8(b << 1)` (R140). -/
def shiftLeft1 (b : Byte) : Byte := BitVec.ofNat 8 (b.toNat * 2)

/-- The bit a left shift puts out: bit 7 (R140). -/
def highBit (b : Byte) : Bool := decide (128 ≤ b.toNat)

/-- `I + V[x]`, exact (FX1E, spec/43_index_memory.md R151). -/
def State.indexSum (s : State) (x : Reg) : Nat := s.idx.toNat + (s.reg x).toNat

/-- Whether FX1E passes 0xFFF (spec/43_index_memory.md R151). -/
def State.indexOverflow (s : State) (x : Reg) : Bool := decide (0xFFF < s.indexSum x)

/-- Write a result into Vx and then its flag into VF, so that with x = 15 the flag remains (spec/00_scope.md R15,
spec/10_state.md R24; decision D14 of the spec; UNVERIFIED, unsafe; log entry 12). -/
def State.setResult (s : State) (x : Reg) (result : Byte) (flag : Bool) : State :=
  (s.setReg x result).setReg VF (flagByte flag)

end Sys2Proof.Machine
end

