-- ==== Sys2Proof/Machine/Ops.lean ====
section
/-! DEFINITION. The operations that several instructions share: raising an error, the range checks, memory, the call
stack, skips and the timer step. -/

namespace Sys2Proof.Machine

/-! ## Errors (spec/60_exceptions.md) -/

/-- What a meaning or a step answers. -/
abbrev Result := Host.Outcome State Fault Refusal

/-- The numeric code of a cycle error (R200, decision D25 of the spec). -/
def CycleError.code : CycleError → Nat
  | .outOfBounds => 3
  | .unknownInstruction => 4
  | .stackOverflow => 5
  | .dataOutOfBounds => 6
  | .fontWrite => 7

/-- The numeric code of a load error (R200, decision D25 of the spec). -/
def LoadError.code : LoadError → Nat
  | .emptyProgram => 1
  | .romTooLarge => 2

/-- The fault of an error, carrying the state it leaves. -/
def Fault.ofError (e : CycleError) (left : State) : Fault :=
  match e with
  | .outOfBounds => .outOfBounds left
  | .unknownInstruction => .unknownInstruction left
  | .stackOverflow => .stackOverflow left
  | .dataOutOfBounds => .dataOutOfBounds left
  | .fontWrite => .fontWrite left

/-- The error a fault reports to the host (R203). -/
def Fault.error : Fault → CycleError
  | .outOfBounds _ => .outOfBounds
  | .unknownInstruction _ => .unknownInstruction
  | .stackOverflow _ => .stackOverflow
  | .dataOutOfBounds _ => .dataOutOfBounds
  | .fontWrite _ => .fontWrite

/-- The state a fault leaves (R204). -/
def Fault.left : Fault → State
  | .outOfBounds t => t
  | .unknownInstruction t => t
  | .stackOverflow t => t
  | .dataOutOfBounds t => t
  | .fontWrite t => t

/-- `raise E(info)` (R203): the cycle ends, the status becomes `Halted(E, info)`, every write made before stays, and the
host receives E. There is no trap entry and no return (R207, R208). -/
def raise (e : CycleError) (info : ErrorInfo) (s : State) : Result :=
  .fault (Fault.ofError e { s with status := .halted e info })

/-- `raise` inside an instruction (R201): pc is already advanced, so its address is pc - 2, and its word is its
encoding (DEDUCED, safe; log entry 13). -/
def raiseIn (i : Instr) (e : CycleError) (detail : Option Nat) (s : State) : Result :=
  raise e ⟨s.pc - 2, some (encode i), detail⟩ s

/-! ## Range checks (spec/20_memory.md R54) -/

/-- `CheckRead(base, count)`: the lowest address above 0xFFF, if the range has one. -/
def checkRead : Nat → Nat → Option (CycleError × Nat)
  | _, 0 => none
  | base, count + 1 => if 0xFFF < base then some (.dataOutOfBounds, base) else checkRead (base + 1) count

/-- `CheckWrite(base, count)`: the lowest address above 0xFFF or in the font region, if the range has one. -/
def checkWrite : Nat → Nat → Option (CycleError × Nat)
  | _, 0 => none
  | base, count + 1 =>
    if 0xFFF < base then some (.dataOutOfBounds, base)
    else if inFont base then some (.fontWrite, base)
    else checkWrite (base + 1) count

/-- Raise what a range check found, or go on. -/
def guarded (i : Instr) (check : Option (CycleError × Nat)) (s : State) (go : State) : Result :=
  match check with
  | some (e, a) => raiseIn i e (some a) s
  | none => .next go

/-! ## Memory (spec/20_memory.md R52, R53) -/

/-- `M[a]`. -/
def State.byteAt (s : State) (a : Nat) : Byte := Memory.read s.config.font s.mem a

/-- `count` bytes from I on (R57). -/
def State.bytesAtI (s : State) (count : Nat) : List Byte :=
  Memory.readBytes s.config.font s.mem s.dataBase count

/-- Store bytes from an address on, one at a time and lowest first (R57). -/
def State.store (s : State) (base : Nat) (bytes : List Byte) : State :=
  { s with mem := Memory.writeBytes s.config.font s.mem base bytes }

/-! ## pc and the call stack -/

/-- `pc <- target`: unchecked and unaligned (spec/41_control_flow.md R118). -/
def State.jump (s : State) (target : Word) : State := { s with pc := target }

/-- A skip, `pc <- pc + 2`, where the condition holds; the skipped word is not read (spec/40_cycle.md R99). -/
def State.skipIf (s : State) (c : Bool) : State := { s with pc := if c then s.pc + 2 else s.pc }

/-- Push the pc: fill entry SP, then SP grows (spec/41_control_flow.md R112). -/
def State.pushPc (s : State) (h : s.sp.val < 16) : State :=
  { s with stack := s.stack.set s.sp.val s.pc h, sp := ⟨s.sp.val + 1, by omega⟩ }

/-- Pop the pc and leave 0 in the entry; no effect on an empty stack (spec/41_control_flow.md R110; UNVERIFIED, unsafe;
log entry 17). -/
def State.popPc (s : State) : State :=
  if h : s.sp.val = 0 then s
  else
    have hk : s.sp.val - 1 < 16 := by omega
    { s with
      pc := s.stack.get ⟨s.sp.val - 1, hk⟩
      stack := s.stack.set (s.sp.val - 1) 0 hk
      sp := ⟨s.sp.val - 1, by omega⟩ }

/-! ## Timers (spec/60_exceptions.md R211) -/

/-- One tick of one timer: down by one, stopping at 0. -/
def countDown (t : Byte) : Byte := if t = 0 then 0 else t - 1

/-- `TimerStep(tick)`: both timers, on the same condition. -/
def timerStep (tick : Bool) (s : State) : State :=
  { s with dt := if tick then countDown s.dt else s.dt, st := if tick then countDown s.st else s.st }

end Sys2Proof.Machine
end

