-- ==== Sys2Proof/Machine/Alu.lean ====
section
/-! DEFINITION. Register and ALU instructions (spec/42_alu.md). Operands are read before any write (spec/00_scope.md
R14) and VF is written last (R15). None of them writes pc. -/

namespace Sys2Proof.Machine

/-- 6XNN, LD Vx, nn (R130). -/
def execLdImm (x : Reg) (nn : Byte) (s : State) : Result := .next (s.setReg x nn)

/-- 7XNN, ADD Vx, nn (R131): no flag. -/
def execAddImm (x : Reg) (nn : Byte) (s : State) : Result := .next (s.setReg x (sum8 (s.reg x) nn))

/-- 8XY0, LD Vx, Vy (R132). -/
def execLdReg (x y : Reg) (s : State) : Result := .next (s.setReg x (s.reg y))

/-- 8XY1, OR Vx, Vy (R133): VF is not written as a flag (decision D13 of the spec; UNVERIFIED, unsafe; log entry 12). -/
def execOrReg (x y : Reg) (s : State) : Result := .next (s.setReg x (s.reg x ||| s.reg y))

/-- 8XY2, AND Vx, Vy (R134; as R133 for VF). -/
def execAndReg (x y : Reg) (s : State) : Result := .next (s.setReg x (s.reg x &&& s.reg y))

/-- 8XY3, XOR Vx, Vy (R135; as R133 for VF). -/
def execXorReg (x y : Reg) (s : State) : Result := .next (s.setReg x (s.reg x ^^^ s.reg y))

/-- 8XY4, ADD Vx, Vy (R136). -/
def execAddReg (x y : Reg) (s : State) : Result :=
  .next (s.setResult x (sum8 (s.reg x) (s.reg y)) (carryOut (s.reg x) (s.reg y)))

/-- 8XY5, SUB Vx, Vy (R137). -/
def execSubReg (x y : Reg) (s : State) : Result :=
  .next (s.setResult x (diff8 (s.reg x) (s.reg y)) (noBorrow (s.reg x) (s.reg y)))

/-- 8XY6, SHR Vx, Vy (R138): the source is Vy. -/
def execShr (x y : Reg) (s : State) : Result :=
  .next (s.setResult x (shiftRight1 (s.reg y)) (lowBit (s.reg y)))

/-- 8XY7, SUBN Vx, Vy (R139). -/
def execSubn (x y : Reg) (s : State) : Result :=
  .next (s.setResult x (diff8 (s.reg y) (s.reg x)) (noBorrow (s.reg y) (s.reg x)))

/-- 8XYE, SHL Vx, Vy (R140): the source is Vy. -/
def execShl (x y : Reg) (s : State) : Result :=
  .next (s.setResult x (shiftLeft1 (s.reg y)) (highBit (s.reg y)))

/-- CXNN, RND Vx, nn (R141): the random byte is this cycle's input. -/
def execRnd (x : Reg) (nn : Byte) (s : State) : Result := .next (s.setReg x (s.input.rand &&& nn))

end Sys2Proof.Machine
end

