-- ==== Sys2Proof/Machine/ControlFlow.lean ====
section
/-! DEFINITION. Jumps, calls, returns and skips (spec/41_control_flow.md). pc already holds the instruction's address
plus 2 (spec/40_cycle.md R97). -/

namespace Sys2Proof.Machine

/-- 00EE, RET (R110). -/
def execRet (s : State) : Result := .next s.popPc

/-- 1NNN, JP nnn (R111). -/
def execJp (nnn : Addr12) (s : State) : Result := .next (s.jump (zextAddr nnn))

/-- 2NNN, CALL nnn (R112): StackOverflow on a full stack, before anything is written. -/
def execCall (nnn : Addr12) (s : State) : Result :=
  if h : s.sp.val < 16 then .next ((s.pushPc h).jump (zextAddr nnn))
  else raiseIn (.call nnn) .stackOverflow none s

/-- 3XNN, SE Vx, nn (R113). -/
def execSeImm (x : Reg) (nn : Byte) (s : State) : Result := .next (s.skipIf (decide (s.reg x = nn)))

/-- 4XNN, SNE Vx, nn (R114). -/
def execSneImm (x : Reg) (nn : Byte) (s : State) : Result := .next (s.skipIf (decide (s.reg x ≠ nn)))

/-- 5XY0, SE Vx, Vy (R115). -/
def execSeReg (x y : Reg) (s : State) : Result := .next (s.skipIf (decide (s.reg x = s.reg y)))

/-- 9XY0, SNE Vx, Vy (R116). -/
def execSneReg (x y : Reg) (s : State) : Result := .next (s.skipIf (decide (s.reg x ≠ s.reg y)))

/-- BNNN, JP V0, nnn (R117). -/
def execJpV0 (nnn : Addr12) (s : State) : Result := .next (s.jump (s.offsetTarget nnn))

end Sys2Proof.Machine
end

