-- ==== Sys2Proof/Machine/Raster.lean ====
section
/-! DEFINITION. The sprite raster unit (spec/44_display.md R171, R172): a sprite is XORed onto the display buffer,
one byte a row, bit 7 leftmost, clipped at the right and bottom edges. -/

namespace Sys2Proof.Machine

/-- `disp[y][x]` (spec/10_state.md R33). -/
def Display.pixel (d : Display) (x : Fin 64) (y : Fin 32) : Bool := (d.get y).get x

/-- `disp[y][x] <- not disp[y][x]`. -/
def Display.toggle (d : Display) (x : Fin 64) (y : Fin 32) : Display :=
  d.set y.val ((d.get y).set x.val (!d.pixel x y) x.isLt) y.isLt

/-- A display under a draw, and whether a lit pixel has turned off so far. -/
abbrev Drawing := Display × Bool

/-- One bit of a sprite at column `px`, row `py`: a pixel off the screen is left out, a 0 bit changes nothing, a 1 bit
flips the pixel and hits if it was lit. -/
def drawBit (bit : Bool) (px py : Nat) (p : Drawing) : Drawing :=
  if h : px < 64 ∧ py < 32 then
    if bit then (p.1.toggle ⟨px, h.1⟩ ⟨py, h.2⟩, p.2 || p.1.pixel ⟨px, h.1⟩ ⟨py, h.2⟩) else p
  else p

/-- The bits of a row from column `c` of the sprite on, `count` of them, most significant first. -/
def drawBits (row : Byte) (x0 py : Nat) : Nat → Nat → Drawing → Drawing
  | _, 0, p => p
  | c, count + 1, p => drawBits row x0 py (c + 1) count (drawBit (row.getLsbD (7 - c)) (x0 + c) py p)

/-- The rows of a sprite from row `py` of the screen on, stopping at the bottom edge. -/
def drawRows (x0 : Nat) : List Byte → Nat → Drawing → Drawing
  | [], _, p => p
  | row :: rest, py, p =>
    if 32 ≤ py then p else drawRows x0 rest (py + 1) (drawBits row x0 py 0 8 p)

/-- Draw a sprite at column `x0`, row `y0`: the new display, and whether any lit pixel turned off. -/
def drawSprite (d : Display) (rows : List Byte) (x0 y0 : Nat) : Drawing := drawRows x0 rows y0 (d, false)

end Sys2Proof.Machine
end

