-- ==== Sys2Proof/Machine/DisplayInstrs.lean ====
section
/-! DEFINITION. The display instructions (spec/44_display.md). -/

namespace Sys2Proof.Machine

/-- 00E0, CLS (R170). -/
def execCls (s : State) : Result := .next { s with disp := Display.blank }

/-- What DXYN draws (R171): the coordinates come from Vx and Vy before VF is written, the rows from I on. -/
def State.drawing (s : State) (x y : Reg) (n : Nat) : Drawing :=
  drawSprite s.disp (s.bytesAtI n) ((s.reg x).toNat % 64) ((s.reg y).toNat % 32)

/-- DXYN, DRW Vx, Vy, n (R171): the range of all n rows is checked first, also rows the bottom edge stops. -/
def execDrw (x y : Reg) (n : Fin 16) (s : State) : Result :=
  guarded (.drw x y n) (checkRead s.dataBase n.val) s
    ({ s with disp := (s.drawing x y n.val).1 }.setReg VF (flagByte (s.drawing x y n.val).2))

end Sys2Proof.Machine
end

