-- ==== Sys2Proof/Machine/IndexMemory.lean ====
section
/-! DEFINITION. The index register, BCD and block transfer (spec/43_index_memory.md). A range of addresses is checked
whole before any write (spec/20_memory.md R54); I is left as it was by FX33, FX55 and FX65 (R156). -/

namespace Sys2Proof.Machine

/-- ANNN, LD I, nnn (R150). -/
def execLdI (nnn : Addr12) (s : State) : Result := .next { s with idx := zextAddr nnn }

/-- FX1E, ADD I, Vx (R151): past 0xFFF it wraps and sets VF; without overflow VF is 0 or unchanged as the parameter
FX1E_CLEARS_VF says. -/
def State.addToIndex (s : State) (x : Reg) : State :=
  if s.indexOverflow x then
    { s with idx := BitVec.ofNat 16 (s.indexSum x - 0x1000) }.setReg VF 1
  else if s.config.fx1eClearsVF then
    { s with idx := BitVec.ofNat 16 (s.indexSum x) }.setReg VF 0
  else { s with idx := BitVec.ofNat 16 (s.indexSum x) }

/-- FX1E, ADD I, Vx (R151). -/
def execAddI (x : Reg) (s : State) : Result := .next (s.addToIndex x)

/-- FX29, LD F, Vx (R152). -/
def execLdF (x : Reg) (s : State) : Result := .next { s with idx := glyphAddress (s.reg x) }

/-- FX33, LD B, Vx (R153). -/
def execLdB (x : Reg) (s : State) : Result :=
  guarded (.ldB x) (checkWrite s.dataBase 3) s (s.store s.dataBase (bcdDigits (s.reg x)))

/-- FX55, LD [I], Vx (R154). -/
def execLdMemVx (x : Reg) (s : State) : Result :=
  guarded (.ldMemVx x) (checkWrite s.dataBase (x.val + 1)) s (s.store s.dataBase (s.regsTo x))

/-- FX65, LD Vx, [I] (R155): all bytes are read before any register is written. -/
def execLdVxMem (x : Reg) (s : State) : Result :=
  guarded (.ldVxMem x) (checkRead s.dataBase (x.val + 1)) s
    { s with v := setRegsFrom s.v 0 (s.bytesAtI (x.val + 1)) }

end Sys2Proof.Machine
end

