-- ==== Sys2Proof/Machine/KeypadTimers.lean ====
section
/-! DEFINITION. Keypad and timer instructions (spec/45_keypad_timers.md). The keys are this cycle's input, and this
cycle's timer step has already happened. -/

namespace Sys2Proof.Machine

/-- EX9E, SKP Vx (R185). -/
def execSkp (x : Reg) (s : State) : Result := .next (s.skipIf (keyPressed s.input.keys (s.reg x)))

/-- EXA1, SKNP Vx (R186). -/
def execSknp (x : Reg) (s : State) : Result := .next (s.skipIf (!keyPressed s.input.keys (s.reg x)))

/-- FX07, LD Vx, DT (R187). -/
def execLdVxDT (x : Reg) (s : State) : Result := .next (s.setReg x s.dt)

/-- FX15, LD DT, Vx (R188). -/
def execLdDTVx (x : Reg) (s : State) : Result := .next { s with dt := s.reg x }

/-- FX18, LD ST, Vx (R189). -/
def execLdSTVx (x : Reg) (s : State) : Result := .next { s with st := s.reg x }

/-- What FX0A does with a key snapshot (R190): none pressed, back to its own address; else the first, in the host's
order. -/
def State.takeKey (s : State) (x : Reg) (keys : List Key) : State :=
  match keys with
  | [] => { s with pc := s.pc - 2 }
  | k :: _ => s.setReg x (BitVec.ofNat 8 k.val)

/-- FX0A, LD Vx, K (R190). -/
def execLdVxK (x : Reg) (s : State) : Result := .next (s.takeKey x s.input.keys)

end Sys2Proof.Machine
end

