-- ==== Sys2Proof/Machine/Fetch.lean ====
section
/-! DEFINITION. The parts of a cycle around the instruction (spec/40_cycle.md): fetch, the end of a cycle, and placing
a word where the next fetch reads it. -/

namespace Sys2Proof.Machine

/-- Whether a two-byte fetch at an address fits in memory (R93, on the full 16-bit pc). -/
def fetchFits (pc : Word) : Bool := decide (pc.toNat + 2 ≤ memSize)

/-- Step 2's read, `MemRead(pc, 2)`: big-endian, or `none` where it does not fit (R93, spec/20_memory.md R51). -/
def State.fetchWord (s : State) : Option Word :=
  if fetchFits s.pc then some (composeWord (s.byteAt s.pc.toNat) (s.byteAt (s.pc.toNat + 1))) else none

/-- Step 2's `pc <- pc + 2` (R93). -/
def State.advancePc (s : State) : State := { s with pc := s.pc + 2 }

/-- The host's next call has its own inputs: this cycle's are used up (DESIGN CHOICE, safe; log entry 2). -/
def State.endCycle (s : State) : State := { s with inputs := s.inputs.tail, cycle := s.cycle + 1 }

/-- The end of a cycle (R101): a next state gets the next cycle's inputs; an error leaves the state as it raised it. -/
def finishCycle : Result → Result
  | .next t => .next t.endCycle
  | .fault f => .fault f
  | .refused r => .refused r

/-- A state that can fetch: running, with a pc at which a fetch fits; a halted core or a pc past memory is put at
the entry point (DESIGN CHOICE, safe; log entry 15). -/
def State.readyToFetch (s : State) : State :=
  { s with status := .running, pc := if fetchFits s.pc then s.pc else BitVec.ofNat 16 programBase }

/-- Store a word, big-endian, at the pc (spec/20_memory.md R55). -/
def State.placeWord (s : State) (w : Word) : State :=
  s.store s.pc.toNat [(wordBytes w).1, (wordBytes w).2]

end Sys2Proof.Machine
end

