-- ==== Sys2Proof/Machine/Step.lean ====
section
/-! DEFINITION. One cycle of the core, `advance` (spec/40_cycle.md R92). -/

namespace Sys2Proof.Machine

/-- The cycle of a running core from step 2 on, with the timer step done: fetch, decode, execute (R92, R93, R96). -/
def runCycle (s : State) : Host.Outcome State Fault Refusal :=
  match s.fetchWord with
  | none => raise .outOfBounds ⟨s.pc, none, none⟩ s
  | some w =>
    match decodeWord w with
    | none => raise .unknownInstruction ⟨s.pc, some w, none⟩ s.advancePc
    | some i => finishCycle (exec i s.advancePc)

/-- One cycle (R92). On a halted core it changes nothing and reports the same error again (R91). -/
def step (s : State) : Host.Outcome State Fault Refusal :=
  match s.status with
  | .halted e _ => .fault (Fault.ofError e s)
  | .running => runCycle (timerStep s.input.tick s)

/-- The state with a table row's word where the next step fetches it. -/
def State.withFetchWord (s : State) (nbits w : Nat) : State := s.readyToFetch.placeWord (tableWord nbits w)

end Sys2Proof.Machine
end

