-- ==== Sys2Proof/Machine/Interface.lean ====
section
/-! DEFINITION. The core's interface with the host (spec/60_exceptions.md R220): load, advance, and the reads. -/

namespace Sys2Proof.Machine

/-- The largest program image, 4096 - 0x200 bytes (spec/00_scope.md R8). -/
def maxProgram : Nat := memSize - programBase

/-- `load(rom)` (spec/70_reset_and_hazards.md R230): the font and the image are copied, everything else is as
`State.initial` says. A machine's configuration is an argument. -/
def load (c : Config) (rom : List Byte) : Except LoadError State :=
  if rom.length = 0 then .error .emptyProgram
  else if maxProgram < rom.length then .error .romTooLarge
  else .ok ((State.initial c).store programBase rom)

/-- The host supplies the inputs of the coming cycle. -/
def State.withInput (s : State) (inp : CycleInput) : State := { s with inputs := [inp] }

/-- `advance(in)`: one cycle with the inputs of this call (R220, R101). -/
def advance (s : State) (inp : CycleInput) : Result := step (s.withInput inp)

/-- The display read (R220): column `x`, row `y`. -/
def State.hostPixel (s : State) (x : Fin 64) (y : Fin 32) : Bool := s.disp.pixel x y

/-- The sound timer read (R217, R220). -/
def State.hostSound (s : State) : Byte := s.st

/-- The status read (R220). -/
def State.hostStatus (s : State) : Status := s.status

end Sys2Proof.Machine
end

