-- ==== Sys2Proof/Safety.lean ====
section
/-! DEFINITION. What a good state and a safe run are, in the terms the statements use: the invariant of a run, the
states a run reaches, and the words for encodings, ranges of addresses and unchanged registers. -/

namespace Sys2Proof.Machine

/-! ## The invariant -/

/-- The memory is in its canonical form. -/
def State.memOk (s : State) : Prop := Memory.wf s.config.font s.mem = true

/-- No byte of the font region is listed, so each reads as FONT gives it (spec/20_memory.md R53). -/
def State.fontOk (s : State) : Prop := ∀ c ∈ s.mem, inFont c.1 = false

/-- I never exceeds 0xFFF (spec/10_state.md R29). -/
def State.indexOk (s : State) : Prop := s.idx.toNat ≤ 0xFFF

/-- pc never exceeds 0x10FE (spec/10_state.md R26, R39). -/
def State.pcOk (s : State) : Prop := s.pc.toNat ≤ 0x10FE

/-- Every stack entry at or above SP holds 0 (spec/10_state.md R38), and every other holds an address a call can
push: a fetch fits before it, so at most 0x1000 (spec/41_control_flow.md R112). -/
def State.stackOk (s : State) : Prop :=
  ∀ k : Fin 16, (s.sp.val ≤ k.val → s.stack.get k = 0) ∧ (s.stack.get k).toNat ≤ 0x1000

/-- What every state of a run meets. -/
structure State.Inv (s : State) : Prop where
  mem : s.memOk
  font : s.fontOk
  index : s.indexOk
  pc : s.pcOk
  stack : s.stackOk

/-! ## Runs -/

/-- The states that a run reaches under a configuration: a load, then calls of `advance` that end ok, with any inputs
(spec/60_exceptions.md R220). -/
inductive Reachable (c : Config) : State → Prop where
  | load {rom : List Byte} {s : State} : load c rom = .ok s → Reachable c s
  | advance {s t : State} {inp : CycleInput} : Reachable c s → advance s inp = .next t → Reachable c t

/-! ## Words of the statements -/

/-- The word numbered `n`, and no other, decodes to the instruction. -/
def EncodedAs (i : Instr) (n : Nat) : Prop := ∀ w : Word, decodeWord w = some i ↔ w.toNat = n

/-- A data address that exists (spec/20_memory.md R52). -/
def Readable (a : Nat) : Prop := a ≤ 0xFFF

/-- A data address an instruction may write (spec/20_memory.md R53). -/
def Writable (a : Nat) : Prop := a ≤ 0xFFF ∧ ¬ (0x050 ≤ a ∧ a ≤ 0x09F)

/-- `a` is the lowest address of `base, …, base + count - 1` that does not satisfy `ok`. -/
def LowestFailing (ok : Nat → Prop) (base count a : Nat) : Prop :=
  base ≤ a ∧ a < base + count ∧ ¬ ok a ∧ ∀ b, base ≤ b → b < a → ok b

/-- `a` is the lowest address that an instruction touching memory from `base` on may not access: DXYN reads `n` bytes and
FX65 reads x + 1, FX33 writes 3 bytes and FX55 writes x + 1 (spec/20_memory.md R54). No other instruction has one. -/
def FailsFirstAt (i : Instr) (base a : Nat) : Prop :=
  (∃ x y n, i = .drw x y n ∧ LowestFailing Readable base n.val a) ∨
  (∃ x, i = .ldVxMem x ∧ LowestFailing Readable base (x.val + 1) a) ∨
  (∃ x, i = .ldB x ∧ LowestFailing Writable base 3 a) ∨
  ∃ x, i = .ldMemVx x ∧ LowestFailing Writable base (x.val + 1) a

/-- Every register but the listed ones is as before. -/
def KeepsRegsBut (exempt : List Reg) (s t : State) : Prop := ∀ r : Reg, r ∉ exempt → t.reg r = s.reg r

/-- Every byte of memory outside `base, …, base + count - 1` reads as before. -/
def KeepsBytesOutside (base count : Nat) (s t : State) : Prop :=
  ∀ a, ¬ (base ≤ a ∧ a < base + count) → t.byteAt a = s.byteAt a

/-- The state an error of an instruction leaves: nothing changed but the status, which records the error, the
instruction's address, its word and the failing address (spec/60_exceptions.md R201, R204). -/
def State.haltedBy (s : State) (e : CycleError) (word : Word) (detail : Option Nat) : State :=
  { s with status := .halted e ⟨s.pc - 2, some word, detail⟩ }

/-- The instruction raises an error: nothing changes but the status, and its record holds the instruction's address,
which pc is two past (spec/40_cycle.md R97), and the failing data address or none (spec/60_exceptions.md R201, R203). The
word of the record is left to the statements about a whole step. -/
def ExecRaises (i : Instr) (s : State) (e : CycleError) (detail : Option Nat) : Prop :=
  ∃ info, info.addr + 2 = s.pc ∧ info.detail = detail ∧
    exec i s = .fault (Fault.ofError e { s with status := .halted e info })

/-- The timers after this cycle's timer step, and nothing else changed (spec/60_exceptions.md R211). -/
def State.ticked (s : State) : State :=
  { s with
    dt := BitVec.ofNat 8 (s.dt.toNat - s.input.tick.toNat)
    st := BitVec.ofNat 8 (s.st.toNat - s.input.tick.toNat) }

/-- The word at the pc, big-endian (spec/20_memory.md R51). -/
def State.wordAtPc (s : State) : Word :=
  BitVec.ofNat 16 ((s.byteAt s.pc.toNat).toNat * 0x100 + (s.byteAt (s.pc.toNat + 1)).toNat)

/-- Pixel (`px`, `py`) lies under a 1 bit of the `n`-row sprite at I, drawn from (`x0`, `y0`) (spec/44_display.md
R171). -/
def State.spriteCovers (s : State) (x0 y0 n : Nat) (px : Fin 64) (py : Fin 32) : Prop :=
  ∃ r c : Nat, r < n ∧ c < 8 ∧ px.val = x0 + c ∧ py.val = y0 + r ∧
    (s.byteAt (s.idx.toNat + r)).toNat.testBit (7 - c) = true

/-- The instruction reads the key snapshot (spec/40_cycle.md R98). -/
def ReadsKeys (i : Instr) : Prop := ∃ x, i = .skp x ∨ i = .sknp x ∨ i = .ldVxK x

/-- The instruction reads the random byte (spec/40_cycle.md R98). -/
def ReadsRand (i : Instr) : Prop := ∃ x nn, i = .rnd x nn

end Sys2Proof.Machine
end

