-- ==== Sys2Proof/Certificates/Slice0/Obligations.lean ====
section
/-! DEFINITION. The statements for the provers. A meaning runs with pc already advanced (spec/40_cycle.md R97), so
`s.pc - 2` is the instruction's own address; `CycleRunsFourSteps` ties the meanings to a step. An equation
`t = s with some fields of t` is a frame: every other field is as it was in `s`. -/

open Sys2Proof Sys2Proof.Machine

/-! ## Control flow -/

/-- R110. 00EE pops the pc and leaves 0 in the entry; with SP = 0 it changes nothing. -/
def Obligations.ReturnPopsPcOrDoesNothing : Prop :=
  EncodedAs .ret 0x00EE ∧
  ∀ s : State, ∃ t, exec .ret s = .next t ∧ t = { s with pc := t.pc, sp := t.sp, stack := t.stack } ∧
    (s.sp.val = 0 → t = s) ∧
    ∀ k : Fin 16, s.sp.val = k.val + 1 →
      t.sp.val = k.val ∧ t.pc = s.stack.get k ∧ t.stack.get k = 0 ∧
      ∀ j : Fin 16, j ≠ k → t.stack.get j = s.stack.get j

/-- R111 and R117. 1NNN sets pc to NNN; BNNN sets it to NNN + V0, a sum that does not wrap. -/
def Obligations.JumpsSetPcToAbsoluteTarget : Prop :=
  ∀ (nnn : Addr12) (s : State),
    EncodedAs (.jp nnn) (0x1000 + nnn.toNat) ∧ EncodedAs (.jpV0 nnn) (0xB000 + nnn.toNat) ∧
    (∃ t, exec (.jp nnn) s = .next t ∧ t = { s with pc := t.pc } ∧ t.pc.toNat = nnn.toNat) ∧
    ∃ t, exec (.jpV0 nnn) s = .next t ∧ t = { s with pc := t.pc } ∧ t.pc.toNat = nnn.toNat + (s.reg 0).toNat

/-- R112. 2NNN with SP < 16 pushes the advanced pc and jumps to NNN; with SP = 16 it raises StackOverflow and writes
nothing else than the status. -/
def Obligations.CallPushesPcOrOverflows : Prop :=
  ∀ (nnn : Addr12) (s : State), EncodedAs (.call nnn) (0x2000 + nnn.toNat) ∧
    (∀ k : Fin 16, s.sp.val = k.val → ∃ t, exec (.call nnn) s = .next t ∧
      t = { s with pc := t.pc, sp := t.sp, stack := t.stack } ∧
      t.pc.toNat = nnn.toNat ∧ t.sp.val = k.val + 1 ∧ t.stack.get k = s.pc ∧
      ∀ j : Fin 16, j ≠ k → t.stack.get j = s.stack.get j) ∧
    (s.sp.val = 16 → ExecRaises (.call nnn) s .stackOverflow none)

/-- S5 of the test vectors, for every call site and target: a RET that runs right after a CALL gives back the pc after
the call and the stack as it was, where the entry it used held 0 (R38). -/
def Obligations.CallThenReturnRestoresPcAndStack : Prop :=
  ∀ (nnn : Addr12) (s t : State), s.stackOk → exec (.call nnn) s = .next t → ∀ u : State,
    u.stack = t.stack → u.sp = t.sp → exec .ret u = .next { u with pc := s.pc, sp := s.sp, stack := s.stack }

/-- R113 and R114. 3XNN skips exactly when V[x] = NN, 4XNN exactly when not. -/
def Obligations.SkipsComparingImmediate : Prop :=
  ∀ (x : Reg) (nn : Byte) (s : State),
    EncodedAs (.seImm x nn) (0x3000 + x.val * 0x100 + nn.toNat) ∧
    EncodedAs (.sneImm x nn) (0x4000 + x.val * 0x100 + nn.toNat) ∧
    (∃ t, exec (.seImm x nn) s = .next t ∧ t = { s with pc := t.pc } ∧
      (s.reg x = nn → t.pc = s.pc + 2) ∧ (s.reg x ≠ nn → t.pc = s.pc)) ∧
    ∃ t, exec (.sneImm x nn) s = .next t ∧ t = { s with pc := t.pc } ∧
      (s.reg x ≠ nn → t.pc = s.pc + 2) ∧ (s.reg x = nn → t.pc = s.pc)

/-- R115 and R116. 5XY0 skips exactly when V[x] = V[y], 9XY0 exactly when not. -/
def Obligations.SkipsComparingRegisters : Prop :=
  ∀ (x y : Reg) (s : State),
    EncodedAs (.seReg x y) (0x5000 + x.val * 0x100 + y.val * 0x10) ∧
    EncodedAs (.sneReg x y) (0x9000 + x.val * 0x100 + y.val * 0x10) ∧
    (∃ t, exec (.seReg x y) s = .next t ∧ t = { s with pc := t.pc } ∧
      (s.reg x = s.reg y → t.pc = s.pc + 2) ∧ (s.reg x ≠ s.reg y → t.pc = s.pc)) ∧
    ∃ t, exec (.sneReg x y) s = .next t ∧ t = { s with pc := t.pc } ∧
      (s.reg x ≠ s.reg y → t.pc = s.pc + 2) ∧ (s.reg x = s.reg y → t.pc = s.pc)

/-! ## Registers and ALU -/

/-- R130, R131 and R132. 6XNN, 7XNN and 8XY0 write V[x] and nothing else; 7XNN wraps at 8 bits and sets no flag. -/
def Obligations.LoadsAndAddImmediateWriteOneRegister : Prop :=
  ∀ (x y : Reg) (nn : Byte) (s : State),
    EncodedAs (.ldImm x nn) (0x6000 + x.val * 0x100 + nn.toNat) ∧
    EncodedAs (.addImm x nn) (0x7000 + x.val * 0x100 + nn.toNat) ∧
    EncodedAs (.ldReg x y) (0x8000 + x.val * 0x100 + y.val * 0x10) ∧
    (∃ t, exec (.ldImm x nn) s = .next t ∧ t = { s with v := t.v } ∧ KeepsRegsBut [x] s t ∧ t.reg x = nn) ∧
    (∃ t, exec (.addImm x nn) s = .next t ∧ t = { s with v := t.v } ∧ KeepsRegsBut [x] s t ∧
      (t.reg x).toNat = ((s.reg x).toNat + nn.toNat) % 256) ∧
    ∃ t, exec (.ldReg x y) s = .next t ∧ t = { s with v := t.v } ∧ KeepsRegsBut [x] s t ∧ t.reg x = s.reg y

/-- R133, R134 and R135. Each bit of the result is the OR, AND or XOR of the operands' bits; VF is written only as
destination (decision D13 of the spec). -/
def Obligations.LogicWorksBitByBitWithoutFlag : Prop :=
  ∀ (x y : Reg) (s : State),
    EncodedAs (.orReg x y) (0x8001 + x.val * 0x100 + y.val * 0x10) ∧
    EncodedAs (.andReg x y) (0x8002 + x.val * 0x100 + y.val * 0x10) ∧
    EncodedAs (.xorReg x y) (0x8003 + x.val * 0x100 + y.val * 0x10) ∧
    (∃ t, exec (.orReg x y) s = .next t ∧ t = { s with v := t.v } ∧ KeepsRegsBut [x] s t ∧
      ∀ i, (t.reg x).getLsbD i = ((s.reg x).getLsbD i || (s.reg y).getLsbD i)) ∧
    (∃ t, exec (.andReg x y) s = .next t ∧ t = { s with v := t.v } ∧ KeepsRegsBut [x] s t ∧
      ∀ i, (t.reg x).getLsbD i = ((s.reg x).getLsbD i && (s.reg y).getLsbD i)) ∧
    ∃ t, exec (.xorReg x y) s = .next t ∧ t = { s with v := t.v } ∧ KeepsRegsBut [x] s t ∧
      ∀ i, (t.reg x).getLsbD i = ((s.reg x).getLsbD i != (s.reg y).getLsbD i)

/-- R136. 8XY4 adds modulo 256; VF is 1 exactly when the sum exceeds 255, also when x = 15. -/
def Obligations.AddSetsCarryLast : Prop :=
  ∀ (x y : Reg) (s : State),
    EncodedAs (.addReg x y) (0x8004 + x.val * 0x100 + y.val * 0x10) ∧
    ∃ t, exec (.addReg x y) s = .next t ∧ t = { s with v := t.v } ∧ KeepsRegsBut [x, VF] s t ∧
      (x ≠ VF → (t.reg x).toNat = ((s.reg x).toNat + (s.reg y).toNat) % 256) ∧
      (255 < (s.reg x).toNat + (s.reg y).toNat → t.reg VF = 1) ∧
      ((s.reg x).toNat + (s.reg y).toNat ≤ 255 → t.reg VF = 0)

/-- R137 and R139. 8XY5 is V[x] - V[y] and 8XY7 is V[y] - V[x], modulo 256; VF is 1 exactly when there is no borrow,
also when x = 15. -/
def Obligations.SubtractionsSetNoBorrowLast : Prop :=
  ∀ (x y : Reg) (s : State),
    EncodedAs (.subReg x y) (0x8005 + x.val * 0x100 + y.val * 0x10) ∧
    EncodedAs (.subn x y) (0x8007 + x.val * 0x100 + y.val * 0x10) ∧
    (∃ t, exec (.subReg x y) s = .next t ∧ t = { s with v := t.v } ∧ KeepsRegsBut [x, VF] s t ∧
      (x ≠ VF → t.reg x = s.reg x - s.reg y) ∧
      (s.reg y ≤ s.reg x → t.reg VF = 1) ∧ (s.reg x < s.reg y → t.reg VF = 0)) ∧
    ∃ t, exec (.subn x y) s = .next t ∧ t = { s with v := t.v } ∧ KeepsRegsBut [x, VF] s t ∧
      (x ≠ VF → t.reg x = s.reg y - s.reg x) ∧
      (s.reg x ≤ s.reg y → t.reg VF = 1) ∧ (s.reg y < s.reg x → t.reg VF = 0)

/-- R138 and R140. 8XY6 and 8XYE shift V[y], not V[x], by one into V[x]; VF is the bit shifted out, also when
x = 15. -/
def Obligations.ShiftsTakeVyAndSetShiftedOutBitLast : Prop :=
  ∀ (x y : Reg) (s : State),
    EncodedAs (.shr x y) (0x8006 + x.val * 0x100 + y.val * 0x10) ∧
    EncodedAs (.shl x y) (0x800E + x.val * 0x100 + y.val * 0x10) ∧
    (∃ t, exec (.shr x y) s = .next t ∧ t = { s with v := t.v } ∧ KeepsRegsBut [x, VF] s t ∧
      (x ≠ VF → t.reg x = s.reg y >>> 1) ∧ t.reg VF = s.reg y &&& 1) ∧
    ∃ t, exec (.shl x y) s = .next t ∧ t = { s with v := t.v } ∧ KeepsRegsBut [x, VF] s t ∧
      (x ≠ VF → t.reg x = s.reg y <<< 1) ∧ t.reg VF = (s.reg y >>> 7) &&& 1

/-- R141. CXNN writes the random byte of this cycle AND NN; the byte is any byte, no distribution is assumed. -/
def Obligations.RandomByteIsMasked : Prop :=
  ∀ (x : Reg) (nn : Byte) (s : State), EncodedAs (.rnd x nn) (0xC000 + x.val * 0x100 + nn.toNat) ∧
    ∃ t, exec (.rnd x nn) s = .next t ∧ t = { s with v := t.v } ∧ KeepsRegsBut [x] s t ∧
      ∀ i, (t.reg x).getLsbD i = (s.input.rand.getLsbD i && nn.getLsbD i)

/-! ## The index register and memory -/

/-- R150. ANNN sets I to NNN. -/
def Obligations.LoadIndexSetsIndex : Prop :=
  ∀ (nnn : Addr12) (s : State), EncodedAs (.ldI nnn) (0xA000 + nnn.toNat) ∧
    ∃ t, exec (.ldI nnn) s = .next t ∧ t = { s with idx := t.idx } ∧ t.idx.toNat = nnn.toNat

/-- R151. FX1E adds V[x] to I; past 0xFFF it wraps and sets VF to 1; otherwise VF is 0 or unchanged as the parameter
FX1E_CLEARS_VF says. -/
def Obligations.AddToIndexWrapsAndFlags : Prop :=
  ∀ (x : Reg) (s : State), EncodedAs (.addI x) (0xF01E + x.val * 0x100) ∧
    ∃ t, exec (.addI x) s = .next t ∧ t = { s with v := t.v, idx := t.idx } ∧ KeepsRegsBut [VF] s t ∧
      (0xFFF < s.idx.toNat + (s.reg x).toNat →
        t.idx.toNat + 0x1000 = s.idx.toNat + (s.reg x).toNat ∧ t.reg VF = 1) ∧
      (s.idx.toNat + (s.reg x).toNat ≤ 0xFFF →
        t.idx.toNat = s.idx.toNat + (s.reg x).toNat ∧
        (s.config.fx1eClearsVF = true → t.reg VF = 0) ∧ (s.config.fx1eClearsVF = false → t.reg VF = s.reg VF))

/-- R152. FX29 points I at the glyph of the low nibble of V[x]; the high nibble is ignored. -/
def Obligations.FontIndexIsGlyphAddress : Prop :=
  ∀ (x : Reg) (s : State), EncodedAs (.ldF x) (0xF029 + x.val * 0x100) ∧
    ∃ t, exec (.ldF x) s = .next t ∧ t = { s with idx := t.idx } ∧
      t.idx.toNat = 0x050 + 5 * ((s.reg x).toNat % 16)

/-- R153. FX33 stores the hundreds, tens and units of V[x] at I, I+1 and I+2, changing no other byte, where all three
may be written; else it raises the error of the lowest address that may not. -/
def Obligations.BcdStoresDecimalDigits : Prop :=
  ∀ (x : Reg) (s : State), EncodedAs (.ldB x) (0xF033 + x.val * 0x100) ∧
    (s.memOk → (∀ k, k < 3 → Writable (s.dataBase + k)) →
      ∃ t, exec (.ldB x) s = .next t ∧ t = { s with mem := t.mem } ∧ KeepsBytesOutside s.dataBase 3 s t ∧
        ∃ h d u : Nat, (s.reg x).toNat = 100 * h + 10 * d + u ∧ d < 10 ∧ u < 10 ∧
          (t.byteAt s.dataBase).toNat = h ∧ (t.byteAt (s.dataBase + 1)).toNat = d ∧
          (t.byteAt (s.dataBase + 2)).toNat = u) ∧
    ∀ a, LowestFailing Writable s.dataBase 3 a →
      (0xFFF < a → ExecRaises (.ldB x) s .dataOutOfBounds (some a)) ∧
      (a ≤ 0xFFF → ExecRaises (.ldB x) s .fontWrite (some a))

/-- R154. FX55 stores V0 to Vx from I on, changing no other byte and not I, where all the addresses may be written;
else it raises the error of the lowest address that may not. -/
def Obligations.BlockStoreWritesRegisters : Prop :=
  ∀ (x : Reg) (s : State), EncodedAs (.ldMemVx x) (0xF055 + x.val * 0x100) ∧
    (s.memOk → (∀ k, k < x.val + 1 → Writable (s.dataBase + k)) →
      ∃ t, exec (.ldMemVx x) s = .next t ∧ t = { s with mem := t.mem } ∧
        KeepsBytesOutside s.dataBase (x.val + 1) s t ∧
        ∀ k : Reg, k.val ≤ x.val → t.byteAt (s.dataBase + k.val) = s.reg k) ∧
    ∀ a, LowestFailing Writable s.dataBase (x.val + 1) a →
      (0xFFF < a → ExecRaises (.ldMemVx x) s .dataOutOfBounds (some a)) ∧
      (a ≤ 0xFFF → ExecRaises (.ldMemVx x) s .fontWrite (some a))

/-- R155. FX65 loads V0 to Vx from I on, leaving I, memory and the registers above x, where all the addresses exist;
else it raises DataOutOfBounds for the lowest that does not. -/
def Obligations.BlockLoadReadsRegisters : Prop :=
  ∀ (x : Reg) (s : State), EncodedAs (.ldVxMem x) (0xF065 + x.val * 0x100) ∧
    ((∀ k, k < x.val + 1 → Readable (s.dataBase + k)) →
      ∃ t, exec (.ldVxMem x) s = .next t ∧ t = { s with v := t.v } ∧
        (∀ k : Reg, k.val ≤ x.val → t.reg k = s.byteAt (s.dataBase + k.val)) ∧
        ∀ k : Reg, x.val < k.val → t.reg k = s.reg k) ∧
    ∀ a, LowestFailing Readable s.dataBase (x.val + 1) a →
      ExecRaises (.ldVxMem x) s .dataOutOfBounds (some a)

/-- The registers come back: FX65 after FX55 with the same x and I loads what was stored, whatever the registers held
in between. -/
def Obligations.BlockStoreThenLoadRestoresRegisters : Prop :=
  ∀ (x : Reg) (s t u : State), s.memOk → exec (.ldMemVx x) s = .next t →
    u.mem = t.mem → u.config = t.config → u.idx = t.idx →
    ∃ r, exec (.ldVxMem x) u = .next r ∧ r = { u with v := r.v } ∧ ∀ k : Reg, k.val ≤ x.val → r.reg k = s.reg k

/-! ## The display -/

/-- R170. 00E0 unlights every pixel and changes nothing else. -/
def Obligations.ClearUnlightsEveryPixel : Prop :=
  EncodedAs .cls 0x00E0 ∧
  ∀ s : State, ∃ t, exec .cls s = .next t ∧ t = { s with disp := t.disp } ∧
    ∀ (px : Fin 64) (py : Fin 32), t.disp.pixel px py = false

/-- R171. DXYN flips exactly the pixels under the sprite's 1 bits, clipped at the right and bottom edges; VF is 1
exactly when one of them was lit; a range past 0xFFF raises DataOutOfBounds before any effect. -/
def Obligations.DrawFlipsCoveredPixelsAndFlagsCollision : Prop :=
  ∀ (x y : Reg) (n : Fin 16) (s : State),
    EncodedAs (.drw x y n) (0xD000 + x.val * 0x100 + y.val * 0x10 + n.val) ∧
    ((∀ k, k < n.val → Readable (s.dataBase + k)) →
      ∃ t, exec (.drw x y n) s = .next t ∧ t = { s with v := t.v, disp := t.disp } ∧ KeepsRegsBut [VF] s t ∧
        (∀ (px : Fin 64) (py : Fin 32),
          (t.disp.pixel px py ≠ s.disp.pixel px py ↔
            s.spriteCovers ((s.reg x).toNat % 64) ((s.reg y).toNat % 32) n.val px py)) ∧
        (t.reg VF = 0 ∨ t.reg VF = 1) ∧
        (t.reg VF = 1 ↔ ∃ (px : Fin 64) (py : Fin 32), s.disp.pixel px py = true ∧
          s.spriteCovers ((s.reg x).toNat % 64) ((s.reg y).toNat % 32) n.val px py)) ∧
    ∀ a, LowestFailing Readable s.dataBase n.val a →
      ExecRaises (.drw x y n) s .dataOutOfBounds (some a)

/-- The spec's inference of R172: drawing the same sprite twice at the same place (the registers as before the first
draw) restores the buffer, and the second draw reports a collision exactly when the first drew a pixel, that is, lit one
that was not (a first draw that only unlights pixels leaves nothing for the second to hit). -/
def Obligations.DrawingTwiceRestoresDisplay : Prop :=
  ∀ (x y : Reg) (n : Fin 16) (s t : State), exec (.drw x y n) s = .next t →
    ∃ u, exec (.drw x y n) { t with v := s.v } = .next u ∧ u.disp = s.disp ∧
      (u.reg VF = 1 ↔ ∃ (px : Fin 64) (py : Fin 32), s.disp.pixel px py = false ∧ t.disp.pixel px py = true)

/-! ## Keypad and timers -/

/-- R185 and R186. EX9E skips exactly when V[x] is the number of a pressed key, EXA1 exactly when not; the whole byte
is compared. -/
def Obligations.KeySkipsTestTheSnapshot : Prop :=
  ∀ (x : Reg) (s : State),
    EncodedAs (.skp x) (0xE09E + x.val * 0x100) ∧ EncodedAs (.sknp x) (0xE0A1 + x.val * 0x100) ∧
    (∃ t, exec (.skp x) s = .next t ∧ t = { s with pc := t.pc } ∧
      ((∃ k ∈ s.input.keys, k.val = (s.reg x).toNat) → t.pc = s.pc + 2) ∧
      ((∀ k ∈ s.input.keys, k.val ≠ (s.reg x).toNat) → t.pc = s.pc)) ∧
    ∃ t, exec (.sknp x) s = .next t ∧ t = { s with pc := t.pc } ∧
      ((∀ k ∈ s.input.keys, k.val ≠ (s.reg x).toNat) → t.pc = s.pc + 2) ∧
      ((∃ k ∈ s.input.keys, k.val = (s.reg x).toNat) → t.pc = s.pc)

/-- R187, R188 and R189. FX07 copies DT into V[x]; FX15 and FX18 copy V[x] into DT and ST. -/
def Obligations.TimerTransfersCopy : Prop :=
  ∀ (x : Reg) (s : State),
    EncodedAs (.ldVxDT x) (0xF007 + x.val * 0x100) ∧ EncodedAs (.ldDTVx x) (0xF015 + x.val * 0x100) ∧
    EncodedAs (.ldSTVx x) (0xF018 + x.val * 0x100) ∧
    (∃ t, exec (.ldVxDT x) s = .next t ∧ t = { s with v := t.v } ∧ KeepsRegsBut [x] s t ∧ t.reg x = s.dt) ∧
    (∃ t, exec (.ldDTVx x) s = .next t ∧ t = { s with dt := t.dt } ∧ t.dt = s.reg x) ∧
    ∃ t, exec (.ldSTVx x) s = .next t ∧ t = { s with st := t.st } ∧ t.st = s.reg x

/-- R190. FX0A with no key pressed goes back to its own address and changes nothing else; with keys pressed it writes
the first of them, in the host's order, into V[x]. -/
def Obligations.KeyWaitRewindsOrTakesFirstKey : Prop :=
  ∀ (x : Reg) (s : State), EncodedAs (.ldVxK x) (0xF00A + x.val * 0x100) ∧
    (s.input.keys = [] → exec (.ldVxK x) s = .next { s with pc := s.pc - 2 }) ∧
    ∀ k rest, s.input.keys = k :: rest → ∃ t, exec (.ldVxK x) s = .next t ∧ t = { s with v := t.v } ∧
      KeepsRegsBut [x] s t ∧ (t.reg x).toNat = k.val

/-- S10 of the test vectors, as a whole cycle: a step that runs FX0A with no key pressed leaves the pc where it was,
while the timers of that cycle tick. -/
def Obligations.WaitingCycleKeepsPcAndTicks : Prop :=
  ∀ (x : Reg) (s : State), s.status = .running → s.pc.toNat + 2 ≤ 4096 → decodeWord s.wordAtPc = some (.ldVxK x) →
    s.input.keys = [] → ∃ t, step s = .next t ∧ t.pc = s.pc ∧ t.dt = s.ticked.dt ∧ t.st = s.ticked.st ∧
      t.v = s.v ∧ t.idx = s.idx ∧ t.stack = s.stack ∧ t.sp = s.sp ∧ t.disp = s.disp ∧ t.mem = s.mem

/-! ## Encoding -/

/-- Decoding the encoding of an instruction gives it back, with every operand at every value, from the word and from
the bytes as memory holds them. -/
def Obligations.DecodeOfEncodeIsInstruction : Prop :=
  ∀ i : Instr, decodeWord (encode i) = some i ∧
    ∀ rest, decode ((wordBytes (encode i)).1 :: (wordBytes (encode i)).2 :: rest) = .ok (i, rest)

/-- A word that decodes is the encoding of what it decodes to: no bit of a word is dropped. -/
def Obligations.EncodeOfDecodeIsWord : Prop :=
  ∀ (w : Word) (i : Instr), decodeWord w = some i → encode i = w

/-- R73. A word is the instruction of a row exactly when it fits the row's mask and match. -/
def Obligations.DecoderFollowsOpcodeTable : Prop :=
  ∀ w : Word,
    (∀ i, decodeWord w = some i → i.row ∈ opcodeTable ∧ w &&& i.row.mask = i.row.pat) ∧
    ∀ r ∈ opcodeTable, w &&& r.mask = r.pat → ∃ i, decodeWord w = some i ∧ i.row = r

/-- The spec's inference of R80: no word fits two rows of the table. -/
def Obligations.NoWordFitsTwoRows : Prop :=
  opcodeTable.Pairwise fun r q => ∀ w : Word, w &&& r.mask = r.pat → w &&& q.mask ≠ q.pat

/-- The class list of R74: the words the decoder refuses are exactly the illegal ones of the list. -/
def Obligations.DecoderRefusesExactlyIllegalWords : Prop :=
  ∀ w : Word, decodeWord w = none ↔ wellFormedWord w = false

/-- A few words written out from the patterns of R73, and what each is. -/
def Obligations.SpecWordsDecodeAsWritten : Prop :=
  decodeWord 0b0001001000110100 = some (.jp 0x234) ∧ decodeWord 0b1000000100100100 = some (.addReg 1 2) ∧
  decodeWord 0b1111101000110011 = some (.ldB 10) ∧ decodeWord 0b1101000100100101 = some (.drw 1 2 5) ∧
  decodeWord 0b1110010110011110 = some (.skp 5) ∧ decodeWord 0b0101000100100001 = none

/-! ## The cycle -/

/-- R92. A step of a running core ticks the timers, checks that the fetch fits, reads the word at the pc, advances the
pc, decodes and executes; on a halted core it changes nothing and reports the error (R91). That a completed cycle drops
its inputs and counts on is the model's own (log entry 2). -/
def Obligations.CycleRunsFourSteps : Prop :=
  ∀ s : State,
    (∀ e info, s.status = .halted e info → step s = .fault (Fault.ofError e s)) ∧
    (s.status = .running →
      (4096 < s.pc.toNat + 2 →
        step s = .fault (.outOfBounds { s.ticked with status := .halted .outOfBounds ⟨s.pc, none, none⟩ })) ∧
      (s.pc.toNat + 2 ≤ 4096 → decodeWord s.wordAtPc = none →
        step s = .fault (.unknownInstruction { s.ticked with
          pc := s.pc + 2, status := .halted .unknownInstruction ⟨s.pc, some s.wordAtPc, none⟩ })) ∧
      (s.pc.toNat + 2 ≤ 4096 → ∀ i, decodeWord s.wordAtPc = some i →
        (∀ t, exec i { s.ticked with pc := s.pc + 2 } = .next t →
          step s = .next { t with inputs := t.inputs.tail, cycle := t.cycle + 1 }) ∧
        ∀ f, exec i { s.ticked with pc := s.pc + 2 } = .fault f → step s = .fault f))

/-- R211. The timer step lowers DT and ST by one each on a tick, stopping at 0, changes nothing without a tick, and
nothing else ever. -/
def Obligations.TimerStepTicksBothTimersToZero : Prop :=
  ∀ (s : State), timerStep false s = s ∧ timerStep true s = { s with
    dt := (timerStep true s).dt, st := (timerStep true s).st } ∧
    (timerStep true s).dt.toNat = s.dt.toNat - 1 ∧ (timerStep true s).st.toNat = s.st.toNat - 1

/-- The model's own placing of a word (log entries 1 and 15): where the next fetch reads it, it runs. From every state,
the step after `withFetchWord` is the instruction of the placed word, with the timer step before it and pc two past its
address, which is the given pc where a fetch fits there and 0x200 where none does; the two bytes there are the word's,
high byte first, and every other byte is as before. -/
def Obligations.PlacedWordIsFetchedAndRun : Prop :=
  ∀ (s : State) (nbits w : Nat) (i : Instr), s.memOk → decodeTableWord nbits w = some i →
    ∃ u : State, u = { s with
        pc := u.pc, status := .running, mem := u.mem, dt := s.ticked.dt, st := s.ticked.st } ∧
      (s.pc.toNat + 2 ≤ 4096 → u.pc = s.pc + 2) ∧ (4096 < s.pc.toNat + 2 → u.pc = 0x202) ∧
      (u.byteAt (u.pc.toNat - 2)).toNat * 0x100 + (u.byteAt (u.pc.toNat - 1)).toNat = (tableWord nbits w).toNat ∧
      KeepsBytesOutside (u.pc.toNat - 2) 2 s u ∧
      step (s.withFetchWord nbits w) = finishCycle (exec i u)

/-! ## Errors -/

/-- R91. A cycle on a halted core changes nothing and reports the same error again, whatever the inputs. -/
def Obligations.HaltedCoreReportsSameError : Prop :=
  ∀ (s : State) (e : CycleError) (info : ErrorInfo) (inp : CycleInput), s.status = .halted e info →
    ∃ f, advance s inp = .fault f ∧ f.error = e ∧ f.left = s.withInput inp

/-- R203's last sentences, over all errors: the state a fault leaves is halted with the error the fault reports, and
every further step reports that fault again. -/
def Obligations.FaultedCoreNeverRunsAgain : Prop :=
  ∀ (s : State) (f : Fault), step s = .fault f →
    (∃ info, f.left.status = .halted f.error info) ∧ step f.left = .fault f

/-- The spec's inference of R204: the state an error leaves is the state before the cycle, with the timer step done, the
status halted with the error, and pc advanced by 2 unless the error is OutOfBounds. -/
def Obligations.ErrorsArePrecise : Prop :=
  ∀ (s : State) (f : Fault), s.status = .running → step s = .fault f →
    ∃ info, f.left = { s.ticked with
      status := .halted f.error info, pc := if f.error = .outOfBounds then s.pc else s.pc + 2 }

/-- R201. What an error of a running core records: the pc at the start of the cycle, the fetched word unless it is
OutOfBounds, and the failing data address exactly for DataOutOfBounds and FontWrite: the lowest address the fetched
instruction touches that may not be accessed (R54). -/
def Obligations.ErrorRecordsAddressWordAndDetail : Prop :=
  ∀ (s : State) (f : Fault), s.status = .running → step s = .fault f →
    ∃ info, f.left.status = .halted f.error info ∧ info.addr = s.pc ∧
      (f.error = .outOfBounds → info.word = none) ∧ (f.error ≠ .outOfBounds → info.word = some s.wordAtPc) ∧
      (f.error = .dataOutOfBounds → ∃ i a, decodeWord s.wordAtPc = some i ∧ info.detail = some a ∧
        FailsFirstAt i s.dataBase a ∧ ¬ Readable a) ∧
      (f.error = .fontWrite → ∃ i a, decodeWord s.wordAtPc = some i ∧ info.detail = some a ∧
        FailsFirstAt i s.dataBase a ∧ Readable a ∧ ¬ Writable a) ∧
      (f.error ≠ .dataOutOfBounds → f.error ≠ .fontWrite → info.detail = none)

/-- Which instruction raises which error (the "raised by" column of R200): StackOverflow only 2NNN, DataOutOfBounds
only DXYN, FX33, FX55 and FX65, FontWrite only FX33 and FX55, and no instruction raises a fetch or decode error. -/
def Obligations.InstructionsRaiseOnlyTheirErrors : Prop :=
  ∀ (i : Instr) (s : State) (f : Fault), exec i s = .fault f →
    match f.error with
    | .outOfBounds => False
    | .unknownInstruction => False
    | .stackOverflow => ∃ nnn, i = .call nnn
    | .dataOutOfBounds => (∃ x y n, i = .drw x y n) ∨ ∃ x, i = .ldB x ∨ i = .ldMemVx x ∨ i = .ldVxMem x
    | .fontWrite => ∃ x, i = .ldB x ∨ i = .ldMemVx x

/-- No step of any state is refused: every instruction has a meaning. -/
def Obligations.StepIsNeverRefused : Prop :=
  ∀ (s : State) (r : Refusal), step s ≠ .refused r

/-! ## Rules of the whole machine -/

/-- The display is mutated only by 00E0 and DXYN, the call stack and SP only by 2NNN and 00EE. -/
def Obligations.DisplayAndStackHaveOnlyTheirWriters : Prop :=
  ∀ (i : Instr) (s t : State), exec i s = .next t →
    (i ≠ .cls → (∀ x y n, i ≠ .drw x y n) → t.disp = s.disp) ∧
    (i ≠ .ret → (∀ nnn, i ≠ .call nnn) → t.stack = s.stack ∧ t.sp = s.sp)

/-- I is written only by ANNN, FX1E and FX29, DT only by FX15, ST only by FX18, and memory only by FX33 and FX55. -/
def Obligations.IndexTimersAndMemoryHaveOnlyTheirWriters : Prop :=
  ∀ (i : Instr) (s t : State), exec i s = .next t →
    ((∀ nnn, i ≠ .ldI nnn) → (∀ x, i ≠ .addI x ∧ i ≠ .ldF x) → t.idx = s.idx) ∧
    ((∀ x, i ≠ .ldDTVx x) → t.dt = s.dt) ∧ ((∀ x, i ≠ .ldSTVx x) → t.st = s.st) ∧
    ((∀ x, i ≠ .ldB x ∧ i ≠ .ldMemVx x) → ∀ a, t.byteAt a = s.byteAt a)

/-- VF is written, beside as a destination, only by the seven flag writers 8XY4 to 8XY7, 8XYE, DXYN and FX1E, and by
FX65 with x = 15. -/
def Obligations.FlagHasOnlyItsWriters : Prop :=
  ∀ (i : Instr) (s t : State), exec i s = .next t → t.reg VF ≠ s.reg VF →
    (∃ nn, i = .ldImm VF nn ∨ i = .addImm VF nn ∨ i = .rnd VF nn) ∨
    (∃ y, i = .ldReg VF y ∨ i = .orReg VF y ∨ i = .andReg VF y ∨ i = .xorReg VF y) ∨
    (∃ x y, i = .addReg x y ∨ i = .subReg x y ∨ i = .shr x y ∨ i = .subn x y ∨ i = .shl x y) ∨
    (∃ x y n, i = .drw x y n) ∨ (∃ x, i = .addI x) ∨
    i = .ldVxDT VF ∨ i = .ldVxK VF ∨ i = .ldVxMem VF

/-- The spec's inference of R98: EX9E, EXA1 and FX0A alone read the keys, CXNN alone the random byte, and no
instruction the tick. Other inputs change nothing but the model's own input fields (log entry 2). -/
def Obligations.InputsAreReadOnlyByTheirReaders : Prop :=
  ∀ (i : Instr) (s : State) (ins : List CycleInput) (c : Nat),
    (ReadsKeys i → ({ s with inputs := ins, cycle := c } : State).input.keys = s.input.keys) →
    (ReadsRand i → ({ s with inputs := ins, cycle := c } : State).input.rand = s.input.rand) →
    (∀ t, exec i s = .next t →
      exec i { s with inputs := ins, cycle := c } = .next { t with inputs := ins, cycle := c }) ∧
    ∀ f, exec i s = .fault f → ∃ g, exec i { s with inputs := ins, cycle := c } = .fault g ∧
      g.error = f.error ∧ g.left = { f.left with inputs := ins, cycle := c }

/-- The configuration is fixed: no step changes it, nor any byte of the font region, in a state whose memory is
canonical. -/
def Obligations.StepKeepsConfigAndFontBytes : Prop :=
  ∀ s t : State, s.memOk → step s = .next t →
    t.config = s.config ∧ ∀ a, 0x050 ≤ a → a ≤ 0x09F → t.byteAt a = s.byteAt a

/-! ## Load and invariants -/

/-- R230. `load` fails on an empty image and on one longer than 3584 bytes, and otherwise gives the font, the image at
0x200, zeros in every other byte and register, a blank display, pc = 0x200 and a running core. -/
def Obligations.LoadFollowsTheRule : Prop :=
  ∀ (c : Config) (rom : List Byte),
    (rom.length = 0 → load c rom = .error .emptyProgram) ∧
    (3584 < rom.length → load c rom = .error .romTooLarge) ∧
    (0 < rom.length → rom.length ≤ 3584 → ∃ s, load c rom = .ok s ∧
      (∀ k : Fin 80, s.byteAt (0x050 + k.val) = c.font.get k) ∧
      (∀ k (h : k < rom.length), s.byteAt (0x200 + k) = rom[k]) ∧
      (∀ a, a < 4096 → ¬ (0x050 ≤ a ∧ a ≤ 0x09F) → ¬ (0x200 ≤ a ∧ a < 0x200 + rom.length) → s.byteAt a = 0) ∧
      (∀ x, s.reg x = 0) ∧ s.idx = 0 ∧ s.sp = 0 ∧ s.dt = 0 ∧ s.st = 0 ∧ (∀ k, s.stack.get k = 0) ∧
      (∀ px py, s.disp.pixel px py = false) ∧ s.pc = 0x200 ∧ s.status = .running)

/-- The model's choice of a reset state with no program (log entry 1): it is the state that loading the one byte 0
gives, under the default parameters (log entries 4 and 5). -/
def Obligations.ResetIsLoadOfOneZeroByte : Prop :=
  load defaultConfig [0] = .ok State.reset

/-- The invariant holds at reset. -/
def Obligations.ResetMeetsInvariant : Prop := State.reset.Inv

/-- Every step keeps the invariant, from every state that meets it and in the state an error leaves too: memory
canonical, font unlisted, I at most 0xFFF (R29), pc at most 0x10FE (R26), stack entries at or above SP zero (R38). -/
def Obligations.StepKeepsInvariant : Prop :=
  ∀ s : State, s.Inv → (∀ t, step s = .next t → t.Inv) ∧ ∀ f, step s = .fault f → f.left.Inv

/-- In every state a run reaches, under every configuration and all inputs, the invariant holds, the core runs, and
the font region holds FONT. -/
def Obligations.ReachableStatesMeetInvariantAndHoldFont : Prop :=
  ∀ (c : Config) (s : State), Reachable c s →
    s.Inv ∧ s.status = .running ∧ s.config = c ∧ ∀ k : Fin 80, s.byteAt (0x050 + k.val) = c.font.get k

/-- The canonical form means something: two canonical memories that read alike at every address are the same list. -/
def Obligations.CanonicalMemoriesReadAlikeAreEqual : Prop :=
  ∀ (font : Vector Byte 80) (m m' : Memory), Memory.wf font m = true → Memory.wf font m' = true →
    (∀ a, Memory.read font m a = Memory.read font m' a) → m = m'
end

