-- ==== Sys2Proof/Laws/State.lean ====
section
/-! SUPPORT. One lemma per field per update of State, so that later proofs do not unfold a record update. -/

namespace Sys2Proof.Machine

/-! `setReg` -/

theorem State.setReg_v (s : State) (x : Reg) (b : Byte) : (s.setReg x b).v = s.v.set x.val b x.isLt := rfl
@[simp] theorem State.setReg_idx (s : State) (x : Reg) (b : Byte) : (s.setReg x b).idx = s.idx := rfl
@[simp] theorem State.setReg_pc (s : State) (x : Reg) (b : Byte) : (s.setReg x b).pc = s.pc := rfl
@[simp] theorem State.setReg_stack (s : State) (x : Reg) (b : Byte) : (s.setReg x b).stack = s.stack := rfl
@[simp] theorem State.setReg_sp (s : State) (x : Reg) (b : Byte) : (s.setReg x b).sp = s.sp := rfl
@[simp] theorem State.setReg_dt (s : State) (x : Reg) (b : Byte) : (s.setReg x b).dt = s.dt := rfl
@[simp] theorem State.setReg_st (s : State) (x : Reg) (b : Byte) : (s.setReg x b).st = s.st := rfl
@[simp] theorem State.setReg_disp (s : State) (x : Reg) (b : Byte) : (s.setReg x b).disp = s.disp := rfl
@[simp] theorem State.setReg_mem (s : State) (x : Reg) (b : Byte) : (s.setReg x b).mem = s.mem := rfl
@[simp] theorem State.setReg_status (s : State) (x : Reg) (b : Byte) : (s.setReg x b).status = s.status := rfl
@[simp] theorem State.setReg_config (s : State) (x : Reg) (b : Byte) : (s.setReg x b).config = s.config := rfl
@[simp] theorem State.setReg_inputs (s : State) (x : Reg) (b : Byte) : (s.setReg x b).inputs = s.inputs := rfl
@[simp] theorem State.setReg_cycle (s : State) (x : Reg) (b : Byte) : (s.setReg x b).cycle = s.cycle := rfl

/-! `store` -/

@[simp] theorem State.store_v (s : State) (base : Nat) (bytes : List Byte) : (s.store base bytes).v = s.v := rfl
@[simp] theorem State.store_idx (s : State) (base : Nat) (bytes : List Byte) : (s.store base bytes).idx = s.idx := rfl
@[simp] theorem State.store_pc (s : State) (base : Nat) (bytes : List Byte) : (s.store base bytes).pc = s.pc := rfl
@[simp] theorem State.store_stack (s : State) (base : Nat) (bytes : List Byte) : (s.store base bytes).stack = s.stack := rfl
@[simp] theorem State.store_sp (s : State) (base : Nat) (bytes : List Byte) : (s.store base bytes).sp = s.sp := rfl
@[simp] theorem State.store_dt (s : State) (base : Nat) (bytes : List Byte) : (s.store base bytes).dt = s.dt := rfl
@[simp] theorem State.store_st (s : State) (base : Nat) (bytes : List Byte) : (s.store base bytes).st = s.st := rfl
@[simp] theorem State.store_disp (s : State) (base : Nat) (bytes : List Byte) : (s.store base bytes).disp = s.disp := rfl
theorem State.store_mem (s : State) (base : Nat) (bytes : List Byte) : (s.store base bytes).mem = Memory.writeBytes s.config.font s.mem base bytes := rfl
@[simp] theorem State.store_status (s : State) (base : Nat) (bytes : List Byte) : (s.store base bytes).status = s.status := rfl
@[simp] theorem State.store_config (s : State) (base : Nat) (bytes : List Byte) : (s.store base bytes).config = s.config := rfl
@[simp] theorem State.store_inputs (s : State) (base : Nat) (bytes : List Byte) : (s.store base bytes).inputs = s.inputs := rfl
@[simp] theorem State.store_cycle (s : State) (base : Nat) (bytes : List Byte) : (s.store base bytes).cycle = s.cycle := rfl

/-! `jump` -/

@[simp] theorem State.jump_v (s : State) (target : Word) : (s.jump target).v = s.v := rfl
@[simp] theorem State.jump_idx (s : State) (target : Word) : (s.jump target).idx = s.idx := rfl
@[simp] theorem State.jump_pc (s : State) (target : Word) : (s.jump target).pc = target := rfl
@[simp] theorem State.jump_stack (s : State) (target : Word) : (s.jump target).stack = s.stack := rfl
@[simp] theorem State.jump_sp (s : State) (target : Word) : (s.jump target).sp = s.sp := rfl
@[simp] theorem State.jump_dt (s : State) (target : Word) : (s.jump target).dt = s.dt := rfl
@[simp] theorem State.jump_st (s : State) (target : Word) : (s.jump target).st = s.st := rfl
@[simp] theorem State.jump_disp (s : State) (target : Word) : (s.jump target).disp = s.disp := rfl
@[simp] theorem State.jump_mem (s : State) (target : Word) : (s.jump target).mem = s.mem := rfl
@[simp] theorem State.jump_status (s : State) (target : Word) : (s.jump target).status = s.status := rfl
@[simp] theorem State.jump_config (s : State) (target : Word) : (s.jump target).config = s.config := rfl
@[simp] theorem State.jump_inputs (s : State) (target : Word) : (s.jump target).inputs = s.inputs := rfl
@[simp] theorem State.jump_cycle (s : State) (target : Word) : (s.jump target).cycle = s.cycle := rfl

/-! `skipIf` -/

@[simp] theorem State.skipIf_v (s : State) (c : Bool) : (s.skipIf c).v = s.v := rfl
@[simp] theorem State.skipIf_idx (s : State) (c : Bool) : (s.skipIf c).idx = s.idx := rfl
@[simp] theorem State.skipIf_pc (s : State) (c : Bool) : (s.skipIf c).pc = if c then s.pc + 2 else s.pc := rfl
@[simp] theorem State.skipIf_stack (s : State) (c : Bool) : (s.skipIf c).stack = s.stack := rfl
@[simp] theorem State.skipIf_sp (s : State) (c : Bool) : (s.skipIf c).sp = s.sp := rfl
@[simp] theorem State.skipIf_dt (s : State) (c : Bool) : (s.skipIf c).dt = s.dt := rfl
@[simp] theorem State.skipIf_st (s : State) (c : Bool) : (s.skipIf c).st = s.st := rfl
@[simp] theorem State.skipIf_disp (s : State) (c : Bool) : (s.skipIf c).disp = s.disp := rfl
@[simp] theorem State.skipIf_mem (s : State) (c : Bool) : (s.skipIf c).mem = s.mem := rfl
@[simp] theorem State.skipIf_status (s : State) (c : Bool) : (s.skipIf c).status = s.status := rfl
@[simp] theorem State.skipIf_config (s : State) (c : Bool) : (s.skipIf c).config = s.config := rfl
@[simp] theorem State.skipIf_inputs (s : State) (c : Bool) : (s.skipIf c).inputs = s.inputs := rfl
@[simp] theorem State.skipIf_cycle (s : State) (c : Bool) : (s.skipIf c).cycle = s.cycle := rfl

/-! `advancePc` -/

@[simp] theorem State.advancePc_v (s : State) : (s.advancePc).v = s.v := rfl
@[simp] theorem State.advancePc_idx (s : State) : (s.advancePc).idx = s.idx := rfl
@[simp] theorem State.advancePc_pc (s : State) : (s.advancePc).pc = s.pc + 2 := rfl
@[simp] theorem State.advancePc_stack (s : State) : (s.advancePc).stack = s.stack := rfl
@[simp] theorem State.advancePc_sp (s : State) : (s.advancePc).sp = s.sp := rfl
@[simp] theorem State.advancePc_dt (s : State) : (s.advancePc).dt = s.dt := rfl
@[simp] theorem State.advancePc_st (s : State) : (s.advancePc).st = s.st := rfl
@[simp] theorem State.advancePc_disp (s : State) : (s.advancePc).disp = s.disp := rfl
@[simp] theorem State.advancePc_mem (s : State) : (s.advancePc).mem = s.mem := rfl
@[simp] theorem State.advancePc_status (s : State) : (s.advancePc).status = s.status := rfl
@[simp] theorem State.advancePc_config (s : State) : (s.advancePc).config = s.config := rfl
@[simp] theorem State.advancePc_inputs (s : State) : (s.advancePc).inputs = s.inputs := rfl
@[simp] theorem State.advancePc_cycle (s : State) : (s.advancePc).cycle = s.cycle := rfl

/-! `endCycle` -/

@[simp] theorem State.endCycle_v (s : State) : (s.endCycle).v = s.v := rfl
@[simp] theorem State.endCycle_idx (s : State) : (s.endCycle).idx = s.idx := rfl
@[simp] theorem State.endCycle_pc (s : State) : (s.endCycle).pc = s.pc := rfl
@[simp] theorem State.endCycle_stack (s : State) : (s.endCycle).stack = s.stack := rfl
@[simp] theorem State.endCycle_sp (s : State) : (s.endCycle).sp = s.sp := rfl
@[simp] theorem State.endCycle_dt (s : State) : (s.endCycle).dt = s.dt := rfl
@[simp] theorem State.endCycle_st (s : State) : (s.endCycle).st = s.st := rfl
@[simp] theorem State.endCycle_disp (s : State) : (s.endCycle).disp = s.disp := rfl
@[simp] theorem State.endCycle_mem (s : State) : (s.endCycle).mem = s.mem := rfl
@[simp] theorem State.endCycle_status (s : State) : (s.endCycle).status = s.status := rfl
@[simp] theorem State.endCycle_config (s : State) : (s.endCycle).config = s.config := rfl
@[simp] theorem State.endCycle_inputs (s : State) : (s.endCycle).inputs = s.inputs.tail := rfl
@[simp] theorem State.endCycle_cycle (s : State) : (s.endCycle).cycle = s.cycle + 1 := rfl

/-! `withInput` -/

@[simp] theorem State.withInput_v (s : State) (inp : CycleInput) : (s.withInput inp).v = s.v := rfl
@[simp] theorem State.withInput_idx (s : State) (inp : CycleInput) : (s.withInput inp).idx = s.idx := rfl
@[simp] theorem State.withInput_pc (s : State) (inp : CycleInput) : (s.withInput inp).pc = s.pc := rfl
@[simp] theorem State.withInput_stack (s : State) (inp : CycleInput) : (s.withInput inp).stack = s.stack := rfl
@[simp] theorem State.withInput_sp (s : State) (inp : CycleInput) : (s.withInput inp).sp = s.sp := rfl
@[simp] theorem State.withInput_dt (s : State) (inp : CycleInput) : (s.withInput inp).dt = s.dt := rfl
@[simp] theorem State.withInput_st (s : State) (inp : CycleInput) : (s.withInput inp).st = s.st := rfl
@[simp] theorem State.withInput_disp (s : State) (inp : CycleInput) : (s.withInput inp).disp = s.disp := rfl
@[simp] theorem State.withInput_mem (s : State) (inp : CycleInput) : (s.withInput inp).mem = s.mem := rfl
@[simp] theorem State.withInput_status (s : State) (inp : CycleInput) : (s.withInput inp).status = s.status := rfl
@[simp] theorem State.withInput_config (s : State) (inp : CycleInput) : (s.withInput inp).config = s.config := rfl
@[simp] theorem State.withInput_inputs (s : State) (inp : CycleInput) : (s.withInput inp).inputs = [inp] := rfl
@[simp] theorem State.withInput_cycle (s : State) (inp : CycleInput) : (s.withInput inp).cycle = s.cycle := rfl

/-! `timerStep` -/

@[simp] theorem timerStep_v (b : Bool) (s : State) : (timerStep b s).v = s.v := rfl
@[simp] theorem timerStep_idx (b : Bool) (s : State) : (timerStep b s).idx = s.idx := rfl
@[simp] theorem timerStep_pc (b : Bool) (s : State) : (timerStep b s).pc = s.pc := rfl
@[simp] theorem timerStep_mem (b : Bool) (s : State) : (timerStep b s).mem = s.mem := rfl
@[simp] theorem timerStep_config (b : Bool) (s : State) : (timerStep b s).config = s.config := rfl
@[simp] theorem timerStep_status (b : Bool) (s : State) : (timerStep b s).status = s.status := rfl

/-! Readings that an update of another field leaves alone. -/

@[simp] theorem State.reg_store (s : State) (a : Nat) (bs : List Byte) (x : Reg) : (s.store a bs).reg x = s.reg x := rfl
@[simp] theorem State.reg_jump (s : State) (w : Word) (x : Reg) : (s.jump w).reg x = s.reg x := rfl
@[simp] theorem State.reg_skipIf (s : State) (c : Bool) (x : Reg) : (s.skipIf c).reg x = s.reg x := rfl
@[simp] theorem State.byteAt_setReg (s : State) (x : Reg) (b : Byte) (a : Nat) :
    (s.setReg x b).byteAt a = s.byteAt a := rfl
@[simp] theorem State.byteAt_jump (s : State) (w : Word) (a : Nat) : (s.jump w).byteAt a = s.byteAt a := rfl
@[simp] theorem State.byteAt_skipIf (s : State) (c : Bool) (a : Nat) : (s.skipIf c).byteAt a = s.byteAt a := rfl
@[simp] theorem State.byteAt_timerStep (b : Bool) (s : State) (a : Nat) : (timerStep b s).byteAt a = s.byteAt a := rfl
@[simp] theorem State.byteAt_advancePc (s : State) (a : Nat) : s.advancePc.byteAt a = s.byteAt a := rfl

/-! A fault and the state it carries. -/

@[simp] theorem Fault.left_ofError (e : CycleError) (s : State) : (Fault.ofError e s).left = s := by cases e <;> rfl
@[simp] theorem Fault.error_ofError (e : CycleError) (s : State) : (Fault.ofError e s).error = e := by cases e <;> rfl

theorem Fault.eq_ofError (f : Fault) : f = Fault.ofError f.error f.left := by cases f <;> rfl

end Sys2Proof.Machine
end

