-- ==== Sys2Proof/Laws/Registers.lean ====
section
/-! SUPPORT. Reading registers and stack entries after writing them (spec/00_scope.md R13, R15). -/

namespace Sys2Proof.Machine

/-- A register reads as it was written, and the others as before. -/
@[simp] theorem State.reg_setReg (s : State) (x r : Reg) (b : Byte) :
    (s.setReg x b).reg r = if x = r then b else s.reg r := by
  simp [State.reg, State.setReg, Vector.get_eq_getElem, Vector.getElem_set, Fin.ext_iff]

theorem State.setReg_eq (s : State) (x : Reg) (b : Byte) : s.setReg x b = { s with v := (s.setReg x b).v } := rfl

/-- The flag is written last (R15): VF holds it whatever the destination. -/
@[simp] theorem State.reg_setResult (s : State) (x r : Reg) (b : Byte) (f : Bool) :
    (s.setResult x b f).reg r = if r = VF then flagByte f else if x = r then b else s.reg r := by
  simp only [State.setResult, State.reg_setReg, eq_comm (a := VF)]

theorem State.setResult_eq (s : State) (x : Reg) (b : Byte) (f : Bool) :
    s.setResult x b f = { s with v := (s.setResult x b f).v } := rfl

/-- A result with its flag changes at most its destination and VF. -/
theorem State.setResult_keeps (s : State) (x : Reg) (b : Byte) (f : Bool) :
    KeepsRegsBut [x, VF] s (s.setResult x b f) := by
  intro r hr
  simp only [List.mem_cons, List.not_mem_nil, or_false, not_or] at hr
  simp [hr.2, Ne.symm hr.1]

/-- A register write changes at most its destination. -/
theorem State.setReg_keeps (s : State) (x : Reg) (b : Byte) : KeepsRegsBut [x] s (s.setReg x b) := by
  intro r hr
  simp only [List.mem_cons, List.not_mem_nil, or_false] at hr
  simp [Ne.symm hr]

/-- An entry of the list of V0 to Vx (R154). -/
theorem State.regsTo_getElem? (s : State) (x k : Reg) (h : k.val ≤ x.val) :
    (s.regsTo x)[k.val]? = some (s.reg k) := by
  have hk := k.isLt
  simp [State.regsTo, State.reg, Vector.get_eq_getElem, Nat.lt_succ_of_le h]

theorem State.regsTo_length (s : State) (x : Reg) : (s.regsTo x).length = x.val + 1 := by
  simp [State.regsTo]

/-- Loading a list of bytes from register `k` on: each of them in its register, the others as before (R155). -/
theorem setRegsFrom_get (bytes : List Byte) (v : Vector Byte 16) (k : Nat) (r : Reg) :
    (setRegsFrom v k bytes).get r =
      if k ≤ r.val then (bytes[r.val - k]?).getD (v.get r) else v.get r := by
  induction bytes generalizing v k with
  | nil => simp [setRegsFrom]
  | cons b rest ih =>
    rw [setRegsFrom, ih]
    have hr := r.isLt
    rcases Nat.lt_trichotomy k r.val with h | h | h
    · obtain ⟨d, hd⟩ : ∃ d, r.val - k = d + 1 := ⟨r.val - k - 1, by omega⟩
      have hd' : r.val - (k + 1) = d := by omega
      rw [if_pos (by omega), if_pos (by omega), hd, hd']
      simp [Vector.get_eq_getElem, Nat.ne_of_lt h]
    · subst h
      simp [Vector.get_eq_getElem]
    · rw [if_neg (by omega), if_neg (by omega)]
      simp [Vector.get_eq_getElem, Nat.ne_of_gt h]

end Sys2Proof.Machine
end

