-- ==== Sys2Proof/Laws/Checks.lean ====
section
/-! SUPPORT. What the range checks of spec/20_memory.md R54 answer, and what a guarded instruction then does. -/

namespace Sys2Proof.Machine

theorem inFont_iff (a : Nat) : inFont a = true ↔ 0x050 ≤ a ∧ a ≤ 0x09F := by
  simp only [inFont, Bool.and_eq_true, decide_eq_true_eq]
  simp only [fontBase, fontEnd]
  omega

theorem inFont_eq_false_iff (a : Nat) : inFont a = false ↔ ¬ (0x050 ≤ a ∧ a ≤ 0x09F) := by
  rw [← inFont_iff, Bool.not_eq_true]

theorem lowestFailing_zero (ok : Nat → Prop) (base a : Nat) : ¬ LowestFailing ok base 0 a :=
  fun h => absurd (And.intro h.1 h.2.1) (by omega)

/-- The lowest failing address of a range is its first address, or the lowest of the rest. -/
theorem lowestFailing_succ (ok : Nat → Prop) (base count a : Nat) :
    LowestFailing ok base (count + 1) a ↔
      (¬ ok base ∧ a = base) ∨ (ok base ∧ LowestFailing ok (base + 1) count a) := by
  constructor
  · rintro ⟨h1, h2, h3, h4⟩
    by_cases hb : ok base
    · have hne : a ≠ base := fun h => h3 (h ▸ hb)
      exact Or.inr ⟨hb, by omega, by omega, h3, fun b hb1 hb2 => h4 b (by omega) hb2⟩
    · by_cases hab : a = base
      · exact Or.inl ⟨hb, hab⟩
      · exact absurd (h4 base le_rfl (by omega)) hb
  · rintro (⟨hb, rfl⟩ | ⟨hb, h1, h2, h3, h4⟩)
    · exact ⟨le_rfl, by omega, hb, fun b h1 h2 => absurd h1 (by omega)⟩
    · refine ⟨by omega, by omega, h3, fun b hb1 hb2 => ?_⟩
      by_cases hbb : b = base
      · exact hbb ▸ hb
      · exact h4 b (by omega) hb2

/-- A range satisfies a condition when its first address and the rest do. -/
theorem range_succ_iff (ok : Nat → Prop) (base count : Nat) :
    (∀ k, k < count + 1 → ok (base + k)) ↔ ok base ∧ ∀ k, k < count → ok (base + 1 + k) := by
  constructor
  · exact fun h => ⟨h 0 (by omega), fun k hk => by have := h (k + 1) (by omega); rwa [Nat.add_right_comm, Nat.add_assoc]⟩
  · rintro ⟨h0, hs⟩ k hk
    cases k with
    | zero => exact h0
    | succ k => have := hs k (by omega); rwa [Nat.add_right_comm, Nat.add_assoc] at this

theorem checkRead_eq_none_iff (base count : Nat) :
    checkRead base count = none ↔ ∀ k, k < count → Readable (base + k) := by
  induction count generalizing base with
  | zero => simp [checkRead]
  | succ n ih =>
    rw [range_succ_iff, checkRead]
    by_cases h : 0xFFF < base
    · simp [h, Readable]
    · simp only [if_neg h, ih, Readable]
      exact ⟨fun hr => ⟨by omega, hr⟩, fun hr => hr.2⟩

theorem checkRead_eq_some_iff (base count : Nat) (e : CycleError) (a : Nat) :
    checkRead base count = some (e, a) ↔ e = .dataOutOfBounds ∧ LowestFailing Readable base count a := by
  induction count generalizing base with
  | zero => simp [checkRead, lowestFailing_zero]
  | succ n ih =>
    rw [lowestFailing_succ, checkRead]
    by_cases h : 0xFFF < base
    · simp [h, Readable, eq_comm]
    · simp [h, ih, Readable, Nat.le_of_not_lt h]

/-- The error of a failing write address (R53): DataOutOfBounds before FontWrite. -/
def writeError (a : Nat) : CycleError := if 0xFFF < a then .dataOutOfBounds else .fontWrite

theorem checkWrite_eq_none_iff (base count : Nat) :
    checkWrite base count = none ↔ ∀ k, k < count → Writable (base + k) := by
  induction count generalizing base with
  | zero => simp [checkWrite]
  | succ n ih =>
    rw [range_succ_iff, checkWrite]
    by_cases h : 0xFFF < base
    · simp [h, Writable, Nat.not_le.2 h]
    · by_cases hf : inFont base = true
      · simp [h, hf, Writable, (inFont_iff base).1 hf]
      · simp only [if_neg h, if_neg hf, ih]
        rw [inFont_iff] at hf
        exact ⟨fun hr => ⟨⟨by omega, hf⟩, hr⟩, fun hr => hr.2⟩

theorem checkWrite_eq_some_iff (base count : Nat) (e : CycleError) (a : Nat) :
    checkWrite base count = some (e, a) ↔ e = writeError a ∧ LowestFailing Writable base count a := by
  induction count generalizing base with
  | zero => simp [checkWrite, lowestFailing_zero]
  | succ n ih =>
    rw [lowestFailing_succ, checkWrite]
    by_cases h : 0xFFF < base
    · simp only [if_pos h, Option.some.injEq, Prod.mk.injEq, Writable, Nat.not_le.2 h, false_and, not_false_eq_true,
        true_and, or_false]
      constructor
      · rintro ⟨rfl, rfl⟩; simp [writeError, h]
      · rintro ⟨rfl, rfl⟩; simp [writeError, h]
    · by_cases hf : inFont base = true
      · have hw : ¬ Writable base := fun hw => hw.2 ((inFont_iff base).1 hf)
        simp only [if_neg h, if_pos hf, Option.some.injEq, Prod.mk.injEq, hw, not_false_eq_true, true_and, false_and,
          or_false]
        constructor
        · rintro ⟨rfl, rfl⟩; simp [writeError, h]
        · rintro ⟨rfl, rfl⟩; simp [writeError, h]
      · have hw : Writable base := ⟨by omega, fun hb => hf ((inFont_iff base).2 hb)⟩
        simp [h, hf, ih, hw]

/-! ## Guarded instructions -/

/-- A guarded instruction answers a next state exactly when its check found nothing, and then the one given. -/
theorem guarded_eq_next_iff (i : Instr) (c : Option (CycleError × Nat)) (s go t : State) :
    guarded i c s go = .next t ↔ c = none ∧ t = go := by
  rcases c with _ | ⟨e, a⟩ <;> simp [guarded, raiseIn, raise, eq_comm]

/-- A guarded instruction faults exactly with what its check found, and changes nothing but the status. -/
theorem guarded_eq_fault_iff (i : Instr) (c : Option (CycleError × Nat)) (s go : State) (f : Fault) :
    guarded i c s go = .fault f ↔
      ∃ e a, c = some (e, a) ∧ f = Fault.ofError e (s.haltedBy e (encode i) (some a)) := by
  rcases c with _ | ⟨e, a⟩ <;> simp [guarded, raiseIn, raise, State.haltedBy, eq_comm]

theorem guarded_ne_refused (i : Instr) (c : Option (CycleError × Nat)) (s go : State) (r : Refusal) :
    guarded i c s go ≠ .refused r := by
  rcases c with _ | ⟨e, a⟩ <;> simp [guarded, raiseIn, raise]

end Sys2Proof.Machine
end

