-- ==== Sys2Proof/Laws/Decode.lean ====
section
/-! SUPPORT. The fields of the words the encoder builds (spec/30_encoding.md R71), and the masks of R73 as fields. -/

namespace Sys2Proof

/-! ## Words of the three formats, as numbers -/

theorem wordXNN_toNat {op : Nat} (h : op < 16) (x : Reg) (nn : Byte) :
    (wordXNN op x nn).toNat = op * 0x1000 + x.val * 0x100 + nn.toNat := by
  have := x.isLt; have := nn.isLt
  simp only [wordXNN, BitVec.toNat_ofNat]; omega

theorem wordXYN_toNat {op n : Nat} (h : op < 16) (hn : n < 16) (x y : Reg) :
    (wordXYN op x y n).toNat = op * 0x1000 + x.val * 0x100 + y.val * 0x10 + n := by
  have := x.isLt; have := y.isLt
  simp only [wordXYN, BitVec.toNat_ofNat]; omega

theorem wordNNN_toNat {op : Nat} (h : op < 16) (nnn : Addr12) : (wordNNN op nnn).toNat = op * 0x1000 + nnn.toNat := by
  have := nnn.isLt
  simp only [wordNNN, BitVec.toNat_ofNat]; omega

/-! ## Their fields -/

theorem fieldOp_eq {w : Word} {op r : Nat} (h : w.toNat = op * 0x1000 + r) (hr : r < 0x1000) :
    fieldOp w = op := by
  have := w.isLt
  simp only [fieldOp, bits]; omega

theorem fields_wordXNN {op : Nat} (h : op < 16) (x : Reg) (nn : Byte) :
    fieldOp (wordXNN op x nn) = op ∧ fieldX (wordXNN op x nn) = x ∧ fieldNN (wordXNN op x nn) = nn ∧
      bits (wordXNN op x nn) 7 0 = nn.toNat := by
  have hx := x.isLt; have hn := nn.isLt; have hw := wordXNN_toNat h x nn
  have hb : bits (wordXNN op x nn) 7 0 = nn.toNat := by simp only [bits, hw]; omega
  refine ⟨fieldOp_eq (hw.trans (Nat.add_assoc _ _ _)) (by omega), Fin.ext ?_, ?_, hb⟩
  · simp only [fieldX, bits, hw]; omega
  · rw [fieldNN, hb]; simp

theorem fields_wordXYN {op n : Nat} (h : op < 16) (hn : n < 16) (x y : Reg) :
    fieldOp (wordXYN op x y n) = op ∧ fieldX (wordXYN op x y n) = x ∧ fieldY (wordXYN op x y n) = y ∧
      bits (wordXYN op x y n) 3 0 = n := by
  have hx := x.isLt; have hy := y.isLt; have hw := wordXYN_toNat h hn x y
  refine ⟨fieldOp_eq (r := x.val * 0x100 + y.val * 0x10 + n) (hw.trans (by ring)) (by omega), Fin.ext ?_, Fin.ext ?_, ?_⟩
  · simp only [fieldX, bits, hw]; omega
  · simp only [fieldY, bits, hw]; omega
  · simp only [bits, hw]; omega

theorem fields_wordNNN {op : Nat} (h : op < 16) (nnn : Addr12) :
    fieldOp (wordNNN op nnn) = op ∧ fieldNNN (wordNNN op nnn) = nnn := by
  have hn := nnn.isLt; have hw := wordNNN_toNat h nnn
  refine ⟨fieldOp_eq hw (by omega), BitVec.eq_of_toNat_eq ?_⟩
  simp only [fieldNNN, bits, BitVec.toNat_ofNat, hw]; omega

/-- The bytes of a word, put together again, are the word (R70). -/
theorem composeWord_wordBytes (w : Word) : composeWord (wordBytes w).1 (wordBytes w).2 = w := by
  have := w.isLt
  apply BitVec.eq_of_toNat_eq
  simp only [composeWord, wordBytes, bits, BitVec.toNat_ofNat]; omega

/-- A word is its opcode class, its x, its y and its n. -/
theorem word_toNat_eq (w : Word) :
    w.toNat = fieldOp w * 0x1000 + (fieldX w).val * 0x100 + (fieldY w).val * 0x10 + bits w 3 0 := by
  have := w.isLt
  simp only [fieldOp, fieldX, fieldY, bits]; omega

/-! ## The masks of R73, as numbers -/

/-- The opcode class in its place and a low part below it: their numbers add. -/
theorem toNat_op_or (w low : Word) (h : low.toNat < 0x1000) :
    ((w >>> 12) <<< 12 ||| low).toNat = bits w 15 12 * 0x1000 + low.toNat := by
  have hw := w.isLt
  have h1 : ((w >>> 12) <<< 12).toNat = (w.toNat >>> 12) <<< 12 := by
    simp only [BitVec.toNat_shiftLeft, BitVec.toNat_ushiftRight, Nat.shiftLeft_eq, Nat.shiftRight_eq_div_pow]
    omega
  rw [BitVec.toNat_or, h1, ← Nat.shiftLeft_add_eq_or_of_lt (i := 12) h, Nat.shiftLeft_eq, Nat.shiftRight_eq_div_pow]
  simp only [bits]
  omega

theorem toNat_and_maskOp (w : Word) : (w &&& (0xF000 : Word)).toNat = bits w 15 12 * 0x1000 := by
  have h : w &&& (0xF000 : Word) = (w >>> 12) <<< 12 ||| 0#16 := by
    ext i hi
    interval_cases i <;> simp
  rw [h, toNat_op_or w 0#16 (by decide)]
  simp

theorem toNat_and_maskOpN (w : Word) : (w &&& (0xF00F : Word)).toNat = bits w 15 12 * 0x1000 + bits w 3 0 := by
  have h : w &&& (0xF00F : Word) = (w >>> 12) <<< 12 ||| (w &&& 0xF#16) := by
    ext i hi
    interval_cases i <;> simp
  have hn : (w &&& 0xF#16).toNat = bits w 3 0 := by
    have := Nat.and_two_pow_sub_one_eq_mod w.toNat 4
    simpa [bits] using this
  rw [h, toNat_op_or _ _ (by rw [hn]; simp only [bits]; omega), hn]

theorem toNat_and_maskOpNN (w : Word) : (w &&& (0xF0FF : Word)).toNat = bits w 15 12 * 0x1000 + bits w 7 0 := by
  have h : w &&& (0xF0FF : Word) = (w >>> 12) <<< 12 ||| (w &&& 0xFF#16) := by
    ext i hi
    interval_cases i <;> simp
  have hn : (w &&& 0xFF#16).toNat = bits w 7 0 := by
    have := Nat.and_two_pow_sub_one_eq_mod w.toNat 8
    simpa [bits] using this
  rw [h, toNat_op_or _ _ (by rw [hn]; simp only [bits]; omega), hn]

theorem and_maskAll (w : Word) : w &&& (0xFFFF : Word) = w := by
  ext i hi
  interval_cases i <;> simp

/-! ## When a word built by the encoder fits a row -/

theorem wordNNN_fits {op : Nat} (h : op < 16) (nnn : Addr12) {pat : Word} (hp : pat.toNat = op * 0x1000) :
    (⟨0xF000, pat⟩ : OpcodeRow).fits (wordNNN op nnn) = true := by
  have hf := (fields_wordNNN h nnn).1
  rw [fieldOp] at hf
  simp only [OpcodeRow.fits, beq_iff_eq]
  apply BitVec.eq_of_toNat_eq
  rw [toNat_and_maskOp, hf, hp]

theorem wordXNN_fits {op : Nat} (h : op < 16) (x : Reg) (nn : Byte) {pat : Word} (hp : pat.toNat = op * 0x1000) :
    (⟨0xF000, pat⟩ : OpcodeRow).fits (wordXNN op x nn) = true := by
  have hf := (fields_wordXNN h x nn).1
  rw [fieldOp] at hf
  simp only [OpcodeRow.fits, beq_iff_eq]
  apply BitVec.eq_of_toNat_eq
  rw [toNat_and_maskOp, hf, hp]

theorem wordXNN_fits_sub {op : Nat} (h : op < 16) (x : Reg) (nn : Byte) {pat : Word}
    (hp : pat.toNat = op * 0x1000 + nn.toNat) : (⟨0xF0FF, pat⟩ : OpcodeRow).fits (wordXNN op x nn) = true := by
  have hf := fields_wordXNN h x nn
  rw [fieldOp] at hf
  simp only [OpcodeRow.fits, beq_iff_eq]
  apply BitVec.eq_of_toNat_eq
  rw [toNat_and_maskOpNN, hf.1, hf.2.2.2, hp]

theorem wordXYN_fits {op n : Nat} (h : op < 16) (hn : n < 16) (x y : Reg) {pat : Word}
    (hp : pat.toNat = op * 0x1000) : (⟨0xF000, pat⟩ : OpcodeRow).fits (wordXYN op x y n) = true := by
  have hf := (fields_wordXYN h hn x y).1
  rw [fieldOp] at hf
  simp only [OpcodeRow.fits, beq_iff_eq]
  apply BitVec.eq_of_toNat_eq
  rw [toNat_and_maskOp, hf, hp]

theorem wordXYN_fits_sub {op n : Nat} (h : op < 16) (hn : n < 16) (x y : Reg) {pat : Word}
    (hp : pat.toNat = op * 0x1000 + n) : (⟨0xF00F, pat⟩ : OpcodeRow).fits (wordXYN op x y n) = true := by
  have hf := fields_wordXYN h hn x y
  rw [fieldOp] at hf
  simp only [OpcodeRow.fits, beq_iff_eq]
  apply BitVec.eq_of_toNat_eq
  rw [toNat_and_maskOpN, hf.1, hf.2.2.2, hp]

end Sys2Proof
end

