-- ==== Sys2Proof/Laws/Memory.lean ====
section
/-! SUPPORT. The laws of memory (spec/20_memory.md R52, R53): a byte reads as it was last written, a write leaves every
other byte alone, and every operation keeps the canonical form. -/

namespace Sys2Proof.Machine

/-! ## The canonical form -/

/-- The canonical form, as a property of the list: rising from an address on, each entry in memory and worth listing. -/
def Memory.CanonFrom (font : Vector Byte 80) (low : Nat) (m : Memory) : Prop :=
  Memory.risingFrom low m = true ∧ ∀ c ∈ m, c.1 < memSize ∧ c.2 ≠ unlisted font c.1

theorem Memory.wf_iff {font : Vector Byte 80} {m : Memory} : Memory.wf font m = true ↔ Memory.CanonFrom font 0 m := by
  simp [Memory.wf, Memory.CanonFrom]

theorem Memory.CanonFrom.cons_iff {font : Vector Byte 80} {low k : Nat} {v : Byte} {rest : Memory} :
    Memory.CanonFrom font low ((k, v) :: rest) ↔
      low ≤ k ∧ k < memSize ∧ v ≠ unlisted font k ∧ Memory.CanonFrom font (k + 1) rest := by
  simp only [Memory.CanonFrom, Memory.risingFrom, Bool.and_eq_true, decide_eq_true_eq, List.mem_cons,
    forall_eq_or_imp]
  tauto

theorem Memory.CanonFrom.mono {font : Vector Byte 80} {low low' : Nat} {m : Memory} (h : Memory.CanonFrom font low m)
    (hl : low' ≤ low) : Memory.CanonFrom font low' m := by
  cases m with
  | nil => exact ⟨rfl, by simp⟩
  | cons c rest =>
    obtain ⟨k, v⟩ := c
    rw [Memory.CanonFrom.cons_iff] at h ⊢
    exact ⟨hl.trans h.1, h.2⟩

/-- No address below the first is listed. -/
theorem Memory.lookup_eq_none {font : Vector Byte 80} {low : Nat} {m : Memory} (h : Memory.CanonFrom font low m) {a : Nat}
    (ha : a < low) : Memory.lookup m a = none := by
  induction m generalizing low with
  | nil => rfl
  | cons c rest ih =>
    obtain ⟨k, v⟩ := c
    rw [Memory.CanonFrom.cons_iff] at h
    rw [Memory.lookup, if_neg (by omega), ih h.2.2.2 (by omega)]

/-- A write keeps the canonical form. -/
theorem Memory.CanonFrom.write {font : Vector Byte 80} {low : Nat} {m : Memory} (h : Memory.CanonFrom font low m) {a : Nat}
    (hlow : low ≤ a) (ha : a < memSize) (b : Byte) : Memory.CanonFrom font low (Memory.write font m a b) := by
  induction m generalizing low with
  | nil =>
    unfold Memory.write
    split
    · exact h
    · exact Memory.CanonFrom.cons_iff.2 ⟨hlow, ha, ‹_›, rfl, by simp⟩
  | cons c rest ih =>
    obtain ⟨k, v⟩ := c
    have hc := Memory.CanonFrom.cons_iff.1 h
    unfold Memory.write
    split
    · split
      · exact h
      · exact Memory.CanonFrom.cons_iff.2
          ⟨hlow, ha, ‹_›, Memory.CanonFrom.cons_iff.2 ⟨by omega, hc.2.1, hc.2.2.1, hc.2.2.2⟩⟩
    · split
      · subst a
        split
        · exact hc.2.2.2.mono (by omega)
        · exact Memory.CanonFrom.cons_iff.2 ⟨hlow, ha, ‹_›, hc.2.2.2⟩
      · exact Memory.CanonFrom.cons_iff.2 ⟨hc.1, hc.2.1, hc.2.2.1, ih hc.2.2.2 (by omega)⟩

theorem Memory.write_wf {font : Vector Byte 80} {m : Memory} (h : Memory.wf font m = true) {a : Nat} (ha : a < memSize)
    (b : Byte) : Memory.wf font (Memory.write font m a b) = true :=
  Memory.wf_iff.2 ((Memory.wf_iff.1 h).write (Nat.zero_le _) ha b)

theorem Memory.writeBytes_wf {font : Vector Byte 80} {m : Memory} (h : Memory.wf font m = true) (base : Nat)
    (bytes : List Byte) (hb : base + bytes.length ≤ memSize) :
    Memory.wf font (Memory.writeBytes font m base bytes) = true := by
  induction bytes generalizing m base with
  | nil => exact h
  | cons b rest ih =>
    rw [List.length_cons] at hb
    exact ih (Memory.write_wf h (by omega) b) (base + 1) (by omega)

/-! ## Read after write -/

theorem Memory.read_write_of_canonFrom {font : Vector Byte 80} {low : Nat} {m : Memory} (h : Memory.CanonFrom font low m)
    (a a' : Nat) (b : Byte) :
    Memory.read font (Memory.write font m a b) a' = if a' = a then b else Memory.read font m a' := by
  induction m generalizing low with
  | nil =>
    by_cases hb : b = unlisted font a <;> by_cases ha : a' = a <;>
      simp_all [Memory.write, Memory.read, Memory.lookup]
  | cons c rest ih =>
    obtain ⟨k, v⟩ := c
    have hc := Memory.CanonFrom.cons_iff.1 h
    have hnone := @Memory.lookup_eq_none font (k + 1) rest hc.2.2.2
    have ihr := ih hc.2.2.2
    unfold Memory.write
    split
    case isTrue hak =>
      have hla : Memory.lookup rest a = none := hnone (by omega)
      split
      · by_cases ha : a' = a
        · subst ha
          rw [if_pos rfl, Memory.read, Memory.lookup, if_neg (by omega), hla]
          simp_all
        · rw [if_neg ha]
      · by_cases ha : a' = a
        · subst ha; simp [Memory.read, Memory.lookup]
        · simp [Memory.read, Memory.lookup, ha]
    case isFalse hak =>
      split
      case isTrue hk =>
        subst hk
        have hla : Memory.lookup rest a = none := hnone (by omega)
        split
        · by_cases ha : a' = a
          · subst ha; simp_all [Memory.read]
          · simp [Memory.read, Memory.lookup, ha]
        · by_cases ha : a' = a
          · subst ha; simp [Memory.read, Memory.lookup]
          · simp [Memory.read, Memory.lookup, ha]
      case isFalse hk =>
        by_cases hak' : a' = k
        · subst hak'
          simp [Memory.read, Memory.lookup, Ne.symm hk]
        · simp only [Memory.read, Memory.lookup, if_neg hak'] at ihr ⊢
          exact ihr

/-- A byte reads as it was written, the others as before. -/
theorem Memory.read_write {font : Vector Byte 80} {m : Memory} (h : Memory.wf font m = true) (a a' : Nat) (b : Byte) :
    Memory.read font (Memory.write font m a b) a' = if a' = a then b else Memory.read font m a' :=
  Memory.read_write_of_canonFrom (Memory.wf_iff.1 h) a a' b

/-- Storing a list of bytes: each of them at its address, every other byte as before. -/
theorem Memory.read_writeBytes {font : Vector Byte 80} {m : Memory} (h : Memory.wf font m = true) (base : Nat)
    (bytes : List Byte) (hb : base + bytes.length ≤ memSize) (a : Nat) :
    Memory.read font (Memory.writeBytes font m base bytes) a =
      if base ≤ a then (bytes[a - base]?).getD (Memory.read font m a) else Memory.read font m a := by
  induction bytes generalizing m base with
  | nil => simp [Memory.writeBytes]
  | cons b rest ih =>
    rw [List.length_cons] at hb
    rw [Memory.writeBytes, ih (Memory.write_wf h (by omega) b) (base + 1) (by omega), Memory.read_write h]
    rcases Nat.lt_trichotomy base a with hlt | heq | hgt
    · obtain ⟨d, hd⟩ : ∃ d, a - base = d + 1 := ⟨a - base - 1, by omega⟩
      have hd' : a - (base + 1) = d := by omega
      rw [if_pos (by omega), if_neg (by omega), if_pos (by omega), hd, hd']
      simp
    · subst heq
      rw [if_neg (by omega), if_pos rfl, if_pos le_rfl]
      simp
    · rw [if_neg (by omega), if_neg (by omega), if_neg (by omega)]

/-- Reading a list of bytes. -/
theorem Memory.readBytes_getElem? (font : Vector Byte 80) (m : Memory) (count base k : Nat) :
    (Memory.readBytes font m base count)[k]? = if k < count then some (Memory.read font m (base + k)) else none := by
  induction count generalizing base k with
  | zero => simp [Memory.readBytes]
  | succ n ih =>
    cases k with
    | zero => simp [Memory.readBytes]
    | succ k =>
      simp only [Memory.readBytes, List.getElem?_cons_succ, ih, Nat.add_lt_add_iff_right]
      congr 3; omega

theorem Memory.readBytes_length (font : Vector Byte 80) (m : Memory) (base count : Nat) :
    (Memory.readBytes font m base count).length = count := by
  induction count generalizing base with
  | zero => rfl
  | succ n ih => simp [Memory.readBytes, ih]

/-- Where no address of the font region is written, none becomes listed. -/
theorem Memory.write_fontFree {font : Vector Byte 80} {m : Memory} (h : ∀ c ∈ m, inFont c.1 = false) {a : Nat}
    (ha : inFont a = false) (b : Byte) : ∀ c ∈ Memory.write font m a b, inFont c.1 = false := by
  induction m with
  | nil => unfold Memory.write; split <;> simp [ha]
  | cons c rest ih =>
    obtain ⟨k, v⟩ := c
    have hr := (List.forall_mem_cons.1 h).2
    unfold Memory.write
    split
    · split
      · exact h
      · exact List.forall_mem_cons.2 ⟨ha, h⟩
    · split
      · split
        · exact hr
        · exact List.forall_mem_cons.2 ⟨ha, hr⟩
      · exact List.forall_mem_cons.2 ⟨(List.forall_mem_cons.1 h).1, ih hr⟩

theorem Memory.writeBytes_fontFree {font : Vector Byte 80} {m : Memory} (h : ∀ c ∈ m, inFont c.1 = false) (base : Nat)
    (bytes : List Byte) (hb : ∀ k, k < bytes.length → inFont (base + k) = false) :
    ∀ c ∈ Memory.writeBytes font m base bytes, inFont c.1 = false := by
  induction bytes generalizing m base with
  | nil => exact h
  | cons b rest ih =>
    refine ih (Memory.write_fontFree h (hb 0 (by simp)) b) (base + 1) fun k hk => ?_
    have := hb (k + 1) (by simpa using hk)
    rwa [Nat.add_right_comm, Nat.add_assoc]

/-- The laws of a store, at the state. -/
theorem State.byteAt_store {s : State} (h : s.memOk) (base : Nat) (bytes : List Byte)
    (hb : base + bytes.length ≤ memSize) (a : Nat) :
    (s.store base bytes).byteAt a = if base ≤ a then (bytes[a - base]?).getD (s.byteAt a) else s.byteAt a :=
  Memory.read_writeBytes h base bytes hb a

theorem State.store_keepsOutside {s : State} (h : s.memOk) (base : Nat) (bytes : List Byte)
    (hb : base + bytes.length ≤ memSize) : KeepsBytesOutside base bytes.length s (s.store base bytes) := by
  intro a ha
  rw [State.byteAt_store h base bytes hb]
  split
  · rw [List.getElem?_eq_none (by omega)]; rfl
  · rfl

theorem State.bytesAtI_getElem? (s : State) (count k : Nat) :
    (s.bytesAtI count)[k]? = if k < count then some (s.byteAt (s.dataBase + k)) else none :=
  Memory.readBytes_getElem? _ _ _ _ _

/-- Reset memory is canonical: nothing is listed. -/
theorem State.initial_memOk (c : Config) : (State.initial c).memOk := rfl

end Sys2Proof.Machine
end

