-- ==== Sys2Proof/Laws/PerInstr.lean ====
section
/-! SUPPORT. The per-instruction family `Encoding`: every instruction's row is a row of the table of
spec/30_encoding.md R73, and its encoding fits that row, with every operand. -/

namespace Sys2Proof.Laws.Encoding

/-- The row of the instruction is in the table, and its word fits the row. -/
def Statement (i : Instr) : Prop := i.row ∈ opcodeTable ∧ i.row.fits (encode i) = true

theorem cls : Statement .cls := ⟨by decide, by decide⟩
theorem ret : Statement .ret := ⟨by decide, by decide⟩
theorem jp (nnn : Addr12) : Statement (.jp nnn) :=
  ⟨by simp [opcodeTable, Instr.row], wordNNN_fits (op := 1) (by decide) nnn (by decide)⟩
theorem call (nnn : Addr12) : Statement (.call nnn) :=
  ⟨by simp [opcodeTable, Instr.row], wordNNN_fits (op := 2) (by decide) nnn (by decide)⟩
theorem seImm (x : Reg) (nn : Byte) : Statement (.seImm x nn) :=
  ⟨by simp [opcodeTable, Instr.row], wordXNN_fits (op := 3) (by decide) x nn (by decide)⟩
theorem sneImm (x : Reg) (nn : Byte) : Statement (.sneImm x nn) :=
  ⟨by simp [opcodeTable, Instr.row], wordXNN_fits (op := 4) (by decide) x nn (by decide)⟩
theorem seReg (x y : Reg) : Statement (.seReg x y) :=
  ⟨by simp [opcodeTable, Instr.row], wordXYN_fits_sub (op := 5) (n := 0) (by decide) (by decide) x y (by decide)⟩
theorem ldImm (x : Reg) (nn : Byte) : Statement (.ldImm x nn) :=
  ⟨by simp [opcodeTable, Instr.row], wordXNN_fits (op := 6) (by decide) x nn (by decide)⟩
theorem addImm (x : Reg) (nn : Byte) : Statement (.addImm x nn) :=
  ⟨by simp [opcodeTable, Instr.row], wordXNN_fits (op := 7) (by decide) x nn (by decide)⟩
theorem ldReg (x y : Reg) : Statement (.ldReg x y) :=
  ⟨by simp [opcodeTable, Instr.row], wordXYN_fits_sub (op := 8) (n := 0) (by decide) (by decide) x y (by decide)⟩
theorem orReg (x y : Reg) : Statement (.orReg x y) :=
  ⟨by simp [opcodeTable, Instr.row], wordXYN_fits_sub (op := 8) (n := 1) (by decide) (by decide) x y (by decide)⟩
theorem andReg (x y : Reg) : Statement (.andReg x y) :=
  ⟨by simp [opcodeTable, Instr.row], wordXYN_fits_sub (op := 8) (n := 2) (by decide) (by decide) x y (by decide)⟩
theorem xorReg (x y : Reg) : Statement (.xorReg x y) :=
  ⟨by simp [opcodeTable, Instr.row], wordXYN_fits_sub (op := 8) (n := 3) (by decide) (by decide) x y (by decide)⟩
theorem addReg (x y : Reg) : Statement (.addReg x y) :=
  ⟨by simp [opcodeTable, Instr.row], wordXYN_fits_sub (op := 8) (n := 4) (by decide) (by decide) x y (by decide)⟩
theorem subReg (x y : Reg) : Statement (.subReg x y) :=
  ⟨by simp [opcodeTable, Instr.row], wordXYN_fits_sub (op := 8) (n := 5) (by decide) (by decide) x y (by decide)⟩
theorem shr (x y : Reg) : Statement (.shr x y) :=
  ⟨by simp [opcodeTable, Instr.row], wordXYN_fits_sub (op := 8) (n := 6) (by decide) (by decide) x y (by decide)⟩
theorem subn (x y : Reg) : Statement (.subn x y) :=
  ⟨by simp [opcodeTable, Instr.row], wordXYN_fits_sub (op := 8) (n := 7) (by decide) (by decide) x y (by decide)⟩
theorem shl (x y : Reg) : Statement (.shl x y) :=
  ⟨by simp [opcodeTable, Instr.row], wordXYN_fits_sub (op := 8) (n := 14) (by decide) (by decide) x y (by decide)⟩
theorem sneReg (x y : Reg) : Statement (.sneReg x y) :=
  ⟨by simp [opcodeTable, Instr.row], wordXYN_fits_sub (op := 9) (n := 0) (by decide) (by decide) x y (by decide)⟩
theorem ldI (nnn : Addr12) : Statement (.ldI nnn) :=
  ⟨by simp [opcodeTable, Instr.row], wordNNN_fits (op := 10) (by decide) nnn (by decide)⟩
theorem jpV0 (nnn : Addr12) : Statement (.jpV0 nnn) :=
  ⟨by simp [opcodeTable, Instr.row], wordNNN_fits (op := 11) (by decide) nnn (by decide)⟩
theorem rnd (x : Reg) (nn : Byte) : Statement (.rnd x nn) :=
  ⟨by simp [opcodeTable, Instr.row], wordXNN_fits (op := 12) (by decide) x nn (by decide)⟩
theorem drw (x y : Reg) (n : Fin 16) : Statement (.drw x y n) :=
  ⟨by simp [opcodeTable, Instr.row], wordXYN_fits (op := 13) (by decide) n.isLt x y (by decide)⟩
theorem skp (x : Reg) : Statement (.skp x) :=
  ⟨by simp [opcodeTable, Instr.row], wordXNN_fits_sub (op := 14) (by decide) x 0x9E (by decide)⟩
theorem sknp (x : Reg) : Statement (.sknp x) :=
  ⟨by simp [opcodeTable, Instr.row], wordXNN_fits_sub (op := 14) (by decide) x 0xA1 (by decide)⟩
theorem ldVxDT (x : Reg) : Statement (.ldVxDT x) :=
  ⟨by simp [opcodeTable, Instr.row], wordXNN_fits_sub (op := 15) (by decide) x 0x07 (by decide)⟩
theorem ldVxK (x : Reg) : Statement (.ldVxK x) :=
  ⟨by simp [opcodeTable, Instr.row], wordXNN_fits_sub (op := 15) (by decide) x 0x0A (by decide)⟩
theorem ldDTVx (x : Reg) : Statement (.ldDTVx x) :=
  ⟨by simp [opcodeTable, Instr.row], wordXNN_fits_sub (op := 15) (by decide) x 0x15 (by decide)⟩
theorem ldSTVx (x : Reg) : Statement (.ldSTVx x) :=
  ⟨by simp [opcodeTable, Instr.row], wordXNN_fits_sub (op := 15) (by decide) x 0x18 (by decide)⟩
theorem addI (x : Reg) : Statement (.addI x) :=
  ⟨by simp [opcodeTable, Instr.row], wordXNN_fits_sub (op := 15) (by decide) x 0x1E (by decide)⟩
theorem ldF (x : Reg) : Statement (.ldF x) :=
  ⟨by simp [opcodeTable, Instr.row], wordXNN_fits_sub (op := 15) (by decide) x 0x29 (by decide)⟩
theorem ldB (x : Reg) : Statement (.ldB x) :=
  ⟨by simp [opcodeTable, Instr.row], wordXNN_fits_sub (op := 15) (by decide) x 0x33 (by decide)⟩
theorem ldMemVx (x : Reg) : Statement (.ldMemVx x) :=
  ⟨by simp [opcodeTable, Instr.row], wordXNN_fits_sub (op := 15) (by decide) x 0x55 (by decide)⟩
theorem ldVxMem (x : Reg) : Statement (.ldVxMem x) :=
  ⟨by simp [opcodeTable, Instr.row], wordXNN_fits_sub (op := 15) (by decide) x 0x65 (by decide)⟩

end Sys2Proof.Laws.Encoding
end

