-- ==== Sys2Proof/Laws/Raster.lean ====
section
/-! SUPPORT. What a draw does to each pixel and when it reports a hit (spec/44_display.md R171). -/

namespace Sys2Proof.Machine

/-! ## One pixel -/

theorem Display.pixel_toggle (d : Display) (x px : Fin 64) (y py : Fin 32) :
    (d.toggle x y).pixel px py = if px = x ∧ py = y then !d.pixel px py else d.pixel px py := by
  have h1 := px.isLt
  have h2 := py.isLt
  by_cases hy : y = py
  · subst hy
    by_cases hx : x = px
    · subst hx; simp [Display.pixel, Display.toggle, Vector.get_eq_getElem]
    · have : x.val ≠ px.val := fun h => hx (Fin.ext h)
      simp [Display.pixel, Display.toggle, Vector.get_eq_getElem, this, Ne.symm hx]
  · have : y.val ≠ py.val := fun h => hy (Fin.ext h)
    simp [Display.pixel, Display.toggle, Vector.get_eq_getElem, this, Ne.symm hy]

/-- Two displays with the same pixels are the same display. -/
theorem Display.ext_pixel {d e : Display} (h : ∀ px py, d.pixel px py = e.pixel px py) : d = e := by
  apply Vector.ext
  intro i hi
  apply Vector.ext
  intro j hj
  exact h ⟨j, hj⟩ ⟨i, hi⟩

@[simp] theorem Display.pixel_blank (px : Fin 64) (py : Fin 32) : Display.blank.pixel px py = false := by
  simp [Display.pixel, Display.blank, Vector.get_eq_getElem]

/-! ## A draw as the list of pixels it flips -/

/-- A drawing step flips exactly the pixels of `cover` and hits exactly when one of them was lit. -/
def Flips (cover : Fin 64 → Fin 32 → Prop) (p q : Drawing) : Prop :=
  (∀ px py, q.1.pixel px py ≠ p.1.pixel px py ↔ cover px py) ∧
  (q.2 = true ↔ p.2 = true ∨ ∃ px py, cover px py ∧ p.1.pixel px py = true)

theorem Flips.refl {cover : Fin 64 → Fin 32 → Prop} (p : Drawing) (h : ∀ px py, ¬ cover px py) : Flips cover p p :=
  ⟨fun px py => by simp [h px py], by simp [h]⟩

/-- Two drawing steps whose pixels do not meet flip the pixels of both. -/
theorem Flips.trans {c1 c2 c : Fin 64 → Fin 32 → Prop} {p q r : Drawing} (h1 : Flips c1 p q) (h2 : Flips c2 q r)
    (hd : ∀ px py, ¬ (c1 px py ∧ c2 px py)) (hc : ∀ px py, c px py ↔ c1 px py ∨ c2 px py) : Flips c p r := by
  constructor
  · intro px py
    have a := h1.1 px py
    have b := h2.1 px py
    have := hd px py
    rw [hc]
    cases hp : p.1.pixel px py <;> cases hq : q.1.pixel px py <;> cases hr : r.1.pixel px py <;>
      simp_all
  · have hkeep : ∀ px py, c2 px py → q.1.pixel px py = p.1.pixel px py := fun px py h =>
      not_not.1 fun hne => hd px py ⟨(h1.1 px py).1 hne, h⟩
    rw [h2.2, h1.2]
    constructor
    · rintro ((h | ⟨px, py, h, hl⟩) | ⟨px, py, h, hl⟩)
      · exact Or.inl h
      · exact Or.inr ⟨px, py, (hc px py).2 (Or.inl h), hl⟩
      · exact Or.inr ⟨px, py, (hc px py).2 (Or.inr h), hkeep px py h ▸ hl⟩
    · rintro (h | ⟨px, py, h, hl⟩)
      · exact Or.inl (Or.inl h)
      · rcases (hc px py).1 h with h | h
        · exact Or.inl (Or.inr ⟨px, py, h, hl⟩)
        · exact Or.inr ⟨px, py, h, (hkeep px py h).trans hl⟩

theorem flips_drawBit (bit : Bool) (x y : Nat) (p : Drawing) :
    Flips (fun px py => bit = true ∧ px.val = x ∧ py.val = y) p (drawBit bit x y p) := by
  unfold drawBit
  split
  case isTrue h =>
    split
    case isTrue hb =>
      constructor
      · intro px py
        simp only [Display.pixel_toggle, Fin.ext_iff, hb, true_and]
        split <;> simp_all
      · simp only [Bool.or_eq_true, hb, true_and]
        constructor
        · rintro (hp | hp)
          · exact Or.inl hp
          · exact Or.inr ⟨⟨x, h.1⟩, ⟨y, h.2⟩, ⟨rfl, rfl⟩, hp⟩
        · rintro (hp | ⟨⟨px, hx⟩, ⟨py, hy⟩, ⟨rfl, rfl⟩, hp⟩)
          · exact Or.inl hp
          · exact Or.inr hp
    case isFalse hb => exact Flips.refl p fun px py hc => hb hc.1
  case isFalse h =>
    refine Flips.refl p fun px py hc => h ?_
    have := px.isLt; have := py.isLt
    omega

/-- The bits `c, …, c + count - 1` of a row. -/
theorem flips_drawBits (row : Byte) (x0 y : Nat) (count c : Nat) (p : Drawing) :
    Flips (fun px py => ∃ k, c ≤ k ∧ k < c + count ∧ row.getLsbD (7 - k) = true ∧ px.val = x0 + k ∧ py.val = y) p
      (drawBits row x0 y c count p) := by
  induction count generalizing c p with
  | zero => exact Flips.refl p fun px py ⟨k, h1, h2, _⟩ => absurd h2 (by omega)
  | succ n ih =>
    refine Flips.trans (flips_drawBit (row.getLsbD (7 - c)) (x0 + c) y p) (ih (c + 1) _) ?_ ?_
    · rintro px py ⟨⟨_, h1, _⟩, k, h2, _, _, h3, _⟩; omega
    · intro px py
      constructor
      · rintro ⟨k, h1, h2, hb, hx, hy⟩
        rcases Nat.eq_or_lt_of_le h1 with h | h
        · exact Or.inl ⟨h ▸ hb, h ▸ hx, hy⟩
        · exact Or.inr ⟨k, by omega, by omega, hb, hx, hy⟩
      · rintro (⟨hb, hx, hy⟩ | ⟨k, h1, h2, hb, hx, hy⟩)
        · exact ⟨c, le_rfl, by omega, hb, hx, hy⟩
        · exact ⟨k, by omega, by omega, hb, hx, hy⟩

/-- The rows of a sprite from screen row `y` on. -/
theorem flips_drawRows (x0 : Nat) (rows : List Byte) (y : Nat) (p : Drawing) :
    Flips (fun px py => ∃ r b k, rows[r]? = some b ∧ k < 8 ∧ b.getLsbD (7 - k) = true ∧ px.val = x0 + k ∧
      py.val = y + r) p (drawRows x0 rows y p) := by
  induction rows generalizing y p with
  | nil => exact Flips.refl p fun px py ⟨r, b, k, h, _⟩ => by simp at h
  | cons row rest ih =>
    unfold drawRows
    split
    case isTrue h =>
      refine Flips.refl p fun px py ⟨r, b, k, _, _, _, _, hy⟩ => ?_
      have := py.isLt
      omega
    case isFalse h =>
      refine Flips.trans (flips_drawBits row x0 y 8 0 p) (ih (y + 1) _) ?_ ?_
      · rintro px py ⟨⟨k, _, _, _, _, h1⟩, r, b, k', _, _, _, _, h2⟩; omega
      · intro px py
        constructor
        · rintro ⟨r, b, k, hr, hk, hb, hx, hy⟩
          cases r with
          | zero =>
            obtain rfl : row = b := by simpa using hr
            exact Or.inl ⟨k, by omega, by omega, hb, hx, hy⟩
          | succ r => exact Or.inr ⟨r, b, k, by simpa using hr, hk, hb, hx, by omega⟩
        · rintro (⟨k, h1, h2, hb, hx, hy⟩ | ⟨r, b, k, hr, hk, hb, hx, hy⟩)
          · exact ⟨0, row, k, rfl, by omega, hb, hx, hy⟩
          · exact ⟨r + 1, b, k, by simpa using hr, hk, hb, hx, by omega⟩

/-- What DXYN draws: the pixels under the 1 bits of the `n` bytes from I on, clipped at the edges (R171). -/
theorem flips_drawing (s : State) (x y : Reg) (n : Nat) :
    Flips (s.spriteCovers ((s.reg x).toNat % 64) ((s.reg y).toNat % 32) n) (s.disp, false) (s.drawing x y n) := by
  have h := flips_drawRows ((s.reg x).toNat % 64) (s.bytesAtI n) ((s.reg y).toNat % 32) (s.disp, false)
  have hc : ∀ px py, s.spriteCovers ((s.reg x).toNat % 64) ((s.reg y).toNat % 32) n px py ↔
      ∃ r b k, (s.bytesAtI n)[r]? = some b ∧ k < 8 ∧ b.getLsbD (7 - k) = true ∧
        px.val = (s.reg x).toNat % 64 + k ∧ py.val = (s.reg y).toNat % 32 + r := by
    intro px py
    constructor
    · rintro ⟨r, k, hr, hk, hx, hy, hb⟩
      exact ⟨r, _, k, by rw [State.bytesAtI_getElem?, if_pos hr]; rfl, hk, hb, hx, hy⟩
    · rintro ⟨r, b, k, hr, hk, hb, hx, hy⟩
      rw [State.bytesAtI_getElem?] at hr
      split at hr
      · obtain rfl := Option.some.inj hr
        exact ⟨r, k, ‹_›, hk, hx, hy, hb⟩
      · cases hr
  constructor
  · intro px py; rw [hc]; exact h.1 px py
  · simp only [hc]; exact h.2

end Sys2Proof.Machine
end

