-- ==== Sys2Proof/Laws/Step.lean ====
section
/-! SUPPORT. What a step and a meaning can do, each said once: the cases of a step, the errors a meaning can raise, and
the fields no meaning writes. -/

namespace Sys2Proof.Machine

/-! ## A step -/

/-- The cases of a step (spec/40_cycle.md R91, R92). -/
theorem step_cases (s : State) :
    (∃ e info, s.status = .halted e info ∧ step s = .fault (Fault.ofError e s)) ∨
    s.status = .running ∧
      ((timerStep s.input.tick s).fetchWord = none ∧
          step s = raise .outOfBounds ⟨s.pc, none, none⟩ (timerStep s.input.tick s) ∨
        ∃ w, (timerStep s.input.tick s).fetchWord = some w ∧
          (decodeWord w = none ∧
              step s = raise .unknownInstruction ⟨s.pc, some w, none⟩ (timerStep s.input.tick s).advancePc ∨
            ∃ i, decodeWord w = some i ∧ step s = finishCycle (exec i (timerStep s.input.tick s).advancePc))) := by
  rcases hs : s.status with _ | ⟨e, info⟩
  · refine Or.inr ⟨rfl, ?_⟩
    rcases hw : (timerStep s.input.tick s).fetchWord with _ | w
    · exact Or.inl ⟨rfl, by simp [step, hs, runCycle, hw]⟩
    · refine Or.inr ⟨w, rfl, ?_⟩
      rcases hi : decodeWord w with _ | i
      · exact Or.inl ⟨rfl, by simp [step, hs, runCycle, hw, hi]⟩
      · exact Or.inr ⟨i, rfl, by simp [step, hs, runCycle, hw, hi]⟩
  · exact Or.inl ⟨e, info, rfl, by simp [step, hs]⟩

/-- When a fetch fits, and what it reads (spec/40_cycle.md R93). -/
theorem State.fetchWord_eq_some_iff (s : State) (w : Word) :
    s.fetchWord = some w ↔ s.pc.toNat + 2 ≤ 4096 ∧ w = s.wordAtPc := by
  have h : composeWord (s.byteAt s.pc.toNat) (s.byteAt (s.pc.toNat + 1)) = s.wordAtPc := rfl
  by_cases hf : s.pc.toNat + 2 ≤ 4096 <;> simp [State.fetchWord, fetchFits, memSize, h, hf, eq_comm]

theorem State.fetchWord_eq_none_iff (s : State) : s.fetchWord = none ↔ 4096 < s.pc.toNat + 2 := by
  by_cases hf : s.pc.toNat + 2 ≤ 4096
  · simp [State.fetchWord, fetchFits, memSize, hf]
  · simp [State.fetchWord, fetchFits, memSize, hf, Nat.lt_of_not_le hf]

/-- The timer step, in numbers (spec/60_exceptions.md R211). -/
theorem timerStep_eq_ticked (s : State) : timerStep s.input.tick s = s.ticked := by
  have h : ∀ (b : Bool) (t : Byte), (if b then countDown t else t) = BitVec.ofNat 8 (t.toNat - b.toNat) := by
    intro b t
    have := t.isLt
    cases b
    · simp
    · apply BitVec.eq_of_toNat_eq
      by_cases h0 : t = 0
      · subst h0; rfl
      · have : t.toNat ≠ 0 := fun h => h0 (BitVec.eq_of_toNat_eq h)
        simp only [if_true, countDown, if_neg h0, Bool.toNat_true, BitVec.toNat_ofNat, BitVec.toNat_sub]
        simp
        omega
  simp only [timerStep, State.ticked, h]

theorem finishCycle_eq_next_iff (r : Result) (t : State) :
    finishCycle r = .next t ↔ ∃ u, r = .next u ∧ t = u.endCycle := by
  cases r <;> simp [finishCycle, eq_comm]

theorem finishCycle_eq_fault_iff (r : Result) (f : Fault) : finishCycle r = .fault f ↔ r = .fault f := by
  cases r <;> simp [finishCycle]

/-! ## A meaning -/

/-- Which errors an instruction can raise in a state, with the failing address (spec/60_exceptions.md R200). -/
def Raises (i : Instr) (s : State) (e : CycleError) (detail : Option Nat) : Prop :=
  match i with
  | .call _ => s.sp.val = 16 ∧ e = .stackOverflow ∧ detail = none
  | .drw _ _ n => ∃ a, detail = some a ∧ e = .dataOutOfBounds ∧ LowestFailing Readable s.dataBase n.val a
  | .ldB _ => ∃ a, detail = some a ∧ e = writeError a ∧ LowestFailing Writable s.dataBase 3 a
  | .ldMemVx x => ∃ a, detail = some a ∧ e = writeError a ∧ LowestFailing Writable s.dataBase (x.val + 1) a
  | .ldVxMem x => ∃ a, detail = some a ∧ e = .dataOutOfBounds ∧ LowestFailing Readable s.dataBase (x.val + 1) a
  | _ => False

/-- A meaning that faults raises one of the instruction's errors, and changes nothing but the status (R203). -/
theorem exec_fault_cases {i : Instr} {s : State} {f : Fault} (h : exec i s = .fault f) :
    ∃ e detail, Raises i s e detail ∧ f = Fault.ofError e (s.haltedBy e (encode i) detail) := by
  cases i
  case call nnn =>
    simp only [exec, execCall] at h
    split at h
    · cases h
    · have hs := s.sp.isLt
      exact ⟨.stackOverflow, none, ⟨by omega, rfl, rfl⟩, (Host.Outcome.fault.inj h).symm⟩
  case drw x y n =>
    obtain ⟨e, a, hc, hf⟩ := (guarded_eq_fault_iff _ _ _ _ _).1 h
    obtain ⟨he, hl⟩ := (checkRead_eq_some_iff _ _ _ _).1 hc
    exact ⟨e, some a, ⟨a, rfl, he, hl⟩, hf⟩
  case ldB x =>
    obtain ⟨e, a, hc, hf⟩ := (guarded_eq_fault_iff _ _ _ _ _).1 h
    obtain ⟨he, hl⟩ := (checkWrite_eq_some_iff _ _ _ _).1 hc
    exact ⟨e, some a, ⟨a, rfl, he, hl⟩, hf⟩
  case ldMemVx x =>
    obtain ⟨e, a, hc, hf⟩ := (guarded_eq_fault_iff _ _ _ _ _).1 h
    obtain ⟨he, hl⟩ := (checkWrite_eq_some_iff _ _ _ _).1 hc
    exact ⟨e, some a, ⟨a, rfl, he, hl⟩, hf⟩
  case ldVxMem x =>
    obtain ⟨e, a, hc, hf⟩ := (guarded_eq_fault_iff _ _ _ _ _).1 h
    obtain ⟨he, hl⟩ := (checkRead_eq_some_iff _ _ _ _).1 hc
    exact ⟨e, some a, ⟨a, rfl, he, hl⟩, hf⟩
  all_goals exact nomatch h

/-- No meaning is a refusal. -/
theorem exec_ne_refused (i : Instr) (s : State) (r : Refusal) : exec i s ≠ .refused r := by
  cases i
  case call nnn =>
    simp only [exec, execCall]
    split <;> simp [raiseIn, raise]
  case drw => exact guarded_ne_refused _ _ _ _ _
  case ldB => exact guarded_ne_refused _ _ _ _ _
  case ldMemVx => exact guarded_ne_refused _ _ _ _ _
  case ldVxMem => exact guarded_ne_refused _ _ _ _ _
  all_goals exact nofun

/-- The next state of a meaning, where it answers one. -/
theorem exec_next_cases {i : Instr} {s t : State} (h : exec i s = .next t) :
    match i with
    | .cls => t = { s with disp := Display.blank }
    | .ret => t = s.popPc
    | .jp nnn => t = s.jump (zextAddr nnn)
    | .call nnn => ∃ hs : s.sp.val < 16, t = (s.pushPc hs).jump (zextAddr nnn)
    | .seImm x nn => t = s.skipIf (decide (s.reg x = nn))
    | .sneImm x nn => t = s.skipIf (decide (s.reg x ≠ nn))
    | .seReg x y => t = s.skipIf (decide (s.reg x = s.reg y))
    | .ldImm x nn => t = s.setReg x nn
    | .addImm x nn => t = s.setReg x (sum8 (s.reg x) nn)
    | .ldReg x y => t = s.setReg x (s.reg y)
    | .orReg x y => t = s.setReg x (s.reg x ||| s.reg y)
    | .andReg x y => t = s.setReg x (s.reg x &&& s.reg y)
    | .xorReg x y => t = s.setReg x (s.reg x ^^^ s.reg y)
    | .addReg x y => t = s.setResult x (sum8 (s.reg x) (s.reg y)) (carryOut (s.reg x) (s.reg y))
    | .subReg x y => t = s.setResult x (diff8 (s.reg x) (s.reg y)) (noBorrow (s.reg x) (s.reg y))
    | .shr x y => t = s.setResult x (shiftRight1 (s.reg y)) (lowBit (s.reg y))
    | .subn x y => t = s.setResult x (diff8 (s.reg y) (s.reg x)) (noBorrow (s.reg y) (s.reg x))
    | .shl x y => t = s.setResult x (shiftLeft1 (s.reg y)) (highBit (s.reg y))
    | .sneReg x y => t = s.skipIf (decide (s.reg x ≠ s.reg y))
    | .ldI nnn => t = { s with idx := zextAddr nnn }
    | .jpV0 nnn => t = s.jump (s.offsetTarget nnn)
    | .rnd x nn => t = s.setReg x (s.input.rand &&& nn)
    | .drw x y n => (∀ k, k < n.val → Readable (s.dataBase + k)) ∧
        t = { s with disp := (s.drawing x y n.val).1 }.setReg VF (flagByte (s.drawing x y n.val).2)
    | .skp x => t = s.skipIf (keyPressed s.input.keys (s.reg x))
    | .sknp x => t = s.skipIf (!keyPressed s.input.keys (s.reg x))
    | .ldVxDT x => t = s.setReg x s.dt
    | .ldVxK x => t = s.takeKey x s.input.keys
    | .ldDTVx x => t = { s with dt := s.reg x }
    | .ldSTVx x => t = { s with st := s.reg x }
    | .addI x => t = s.addToIndex x
    | .ldF x => t = { s with idx := glyphAddress (s.reg x) }
    | .ldB x => (∀ k, k < 3 → Writable (s.dataBase + k)) ∧ t = s.store s.dataBase (bcdDigits (s.reg x))
    | .ldMemVx x => (∀ k, k < x.val + 1 → Writable (s.dataBase + k)) ∧ t = s.store s.dataBase (s.regsTo x)
    | .ldVxMem x => (∀ k, k < x.val + 1 → Readable (s.dataBase + k)) ∧
        t = { s with v := setRegsFrom s.v 0 (s.bytesAtI (x.val + 1)) } := by
  cases i
  case call nnn =>
    simp only [exec, execCall] at h
    split at h
    case isTrue hs => exact ⟨hs, (Host.Outcome.next.inj h).symm⟩
    case isFalse hs => cases h
  case drw x y n => exact ((guarded_eq_next_iff _ _ _ _ _).1 h).imp_left (checkRead_eq_none_iff _ _).1
  case ldB x => exact ((guarded_eq_next_iff _ _ _ _ _).1 h).imp_left (checkWrite_eq_none_iff _ _).1
  case ldMemVx x => exact ((guarded_eq_next_iff _ _ _ _ _).1 h).imp_left (checkWrite_eq_none_iff _ _).1
  case ldVxMem x => exact ((guarded_eq_next_iff _ _ _ _ _).1 h).imp_left (checkRead_eq_none_iff _ _).1
  all_goals exact (Host.Outcome.next.inj h).symm

/-- What an instruction can and cannot write: every meaning leaves the status, the configuration and the model's own
input fields as they were. -/
theorem exec_next_keeps {i : Instr} {s t : State} (h : exec i s = .next t) :
    t.status = s.status ∧ t.config = s.config ∧ t.inputs = s.inputs ∧ t.cycle = s.cycle := by
  have hc := exec_next_cases h
  cases i
  case ret =>
    simp only at hc; subst hc
    unfold State.popPc
    split <;> exact ⟨rfl, rfl, rfl, rfl⟩
  case call nnn => obtain ⟨hs, rfl⟩ := hc; exact ⟨rfl, rfl, rfl, rfl⟩
  case addI x =>
    simp only at hc; subst hc
    unfold State.addToIndex
    split
    · exact ⟨rfl, rfl, rfl, rfl⟩
    · split <;> exact ⟨rfl, rfl, rfl, rfl⟩
  case ldVxK x =>
    simp only at hc; subst hc
    unfold State.takeKey
    split <;> exact ⟨rfl, rfl, rfl, rfl⟩
  case drw x y n => obtain ⟨_, rfl⟩ := hc; exact ⟨rfl, rfl, rfl, rfl⟩
  case ldB x => obtain ⟨_, rfl⟩ := hc; exact ⟨rfl, rfl, rfl, rfl⟩
  case ldMemVx x => obtain ⟨_, rfl⟩ := hc; exact ⟨rfl, rfl, rfl, rfl⟩
  case ldVxMem x => obtain ⟨_, rfl⟩ := hc; exact ⟨rfl, rfl, rfl, rfl⟩
  all_goals (simp only at hc; subst hc; exact ⟨rfl, rfl, rfl, rfl⟩)

end Sys2Proof.Machine
end

