-- ==== Sys2Proof/Tests/Slice0.lean ====
section
/-! SUPPORT. The model's own tests. Every expected value comes from spec/95_test_vectors.md (its vector is named) or is
worked out by hand from the cited rule. Each is one cycle from the state after a load with the listed differences. The
witnesses at the end meet the hypotheses of the statements. -/

namespace Sys2Proof.Tests

open Sys2Proof.Machine

/-! ## Helpers -/

/-- No tick, no key pressed, random byte 0: the default inputs of spec/95_test_vectors.md. -/
def quiet : CycleInput := ⟨false, [], 0⟩

/-- The state after a load, with registers set. -/
def withRegs (rs : List (Reg × Byte)) : State := rs.foldl (fun s r => s.setReg r.1 r.2) State.reset

/-- The same, with I set. -/
def withI (i : Word) (rs : List (Reg × Byte)) : State := { withRegs rs with idx := i }

/-- The same, with one pixel lit. -/
def State.lit (s : State) (px : Fin 64) (py : Fin 32) : State := { s with disp := s.disp.toggle px py }

/-- One cycle that runs a word, with given inputs. -/
def cycleWith (inp : CycleInput) (w : Nat) (s : State) : Result := advance (s.withFetchWord 16 w) inp

/-- One cycle that runs a word, with the default inputs. -/
def cycle (w : Nat) (s : State) : Result := cycleWith quiet w s

/-- The state a cycle leaves, after an error too. -/
def endState : Result → State
  | .next t => t
  | .fault f => f.left
  | .refused _ => State.reset

/-- Whether a cycle ends in a next state. -/
def completes : Result → Bool
  | .next _ => true
  | _ => false

theorem eq_next_endState {r : Result} (h : completes r = true) : r = .next (endState r) := by
  cases r
  · rfl
  · cases h
  · cases h

/-- The error a cycle raises and its record: code, address, word, detail. -/
def record : Result → Option (CycleError × Word × Option Word × Option Nat)
  | .fault f =>
    match f.left.status with
    | .halted _ info => some (f.error, info.addr, info.word, info.detail)
    | .running => none
  | _ => none

/-- pc and some registers after a cycle that raises nothing. -/
def pcAndRegs (r : Result) (xs : List Reg) : Option (Word × List Byte) :=
  match r with
  | .next t => some (t.pc, xs.map t.reg)
  | _ => none

/-- pc and some bytes of memory after a cycle that raises nothing. -/
def pcAndBytes (r : Result) (as : List Nat) : Option (Word × List Byte) :=
  match r with
  | .next t => some (t.pc, as.map t.byteAt)
  | _ => none

/-- How many pixels are lit. -/
def litCount (d : Display) : Nat := (d.toList.map fun row => row.toList.count true).sum

/-! ## Which words are instructions (spec/30_encoding.md R73, R74)

Words written out bit by bit as op.x.y.n, one for every constructor. -/

theorem test_decode_control :
    decodeWord 0b0000000011101110 = some .ret ∧ decodeWord 0b0001001000110100 = some (.jp 0x234) ∧
    decodeWord 0b0010111111111111 = some (.call 0xFFF) ∧ decodeWord 0b0011001101000010 = some (.seImm 3 0x42) ∧
    decodeWord 0b0100001101000010 = some (.sneImm 3 0x42) ∧ decodeWord 0b0101000100100000 = some (.seReg 1 2) ∧
    decodeWord 0b1001000100100000 = some (.sneReg 1 2) ∧ decodeWord 0b1011001100000000 = some (.jpV0 0x300) := by decide

theorem test_decode_alu :
    decodeWord 0b0110101010011100 = some (.ldImm 0xA 0x9C) ∧ decodeWord 0b0111000011111111 = some (.addImm 0 0xFF) ∧
    decodeWord 0b1000000100100000 = some (.ldReg 1 2) ∧ decodeWord 0b1000000100100001 = some (.orReg 1 2) ∧
    decodeWord 0b1000000100100010 = some (.andReg 1 2) ∧ decodeWord 0b1000000100100011 = some (.xorReg 1 2) ∧
    decodeWord 0b1000000100100100 = some (.addReg 1 2) ∧ decodeWord 0b1000000100100101 = some (.subReg 1 2) ∧
    decodeWord 0b1000000100100110 = some (.shr 1 2) ∧ decodeWord 0b1000000100100111 = some (.subn 1 2) ∧
    decodeWord 0b1000000100101110 = some (.shl 1 2) ∧ decodeWord 0b1100001100001111 = some (.rnd 3 0x0F) := by decide

theorem test_decode_memory :
    decodeWord 0b1010001100000000 = some (.ldI 0x300) ∧ decodeWord 0b1111001000011110 = some (.addI 2) ∧
    decodeWord 0b1111000000101001 = some (.ldF 0) ∧ decodeWord 0b1111101000110011 = some (.ldB 0xA) ∧
    decodeWord 0b1111111101010101 = some (.ldMemVx 15) ∧ decodeWord 0b1111001001100101 = some (.ldVxMem 2) := by decide

theorem test_decode_display :
    decodeWord 0b0000000011100000 = some .cls ∧ decodeWord 0b1101000100100101 = some (.drw 1 2 5) := by decide

theorem test_decode_keypad_timers :
    decodeWord 0b1110010110011110 = some (.skp 5) ∧ decodeWord 0b1110010110100001 = some (.sknp 5) ∧
    decodeWord 0b1111001100000111 = some (.ldVxDT 3) ∧ decodeWord 0b1111001100001010 = some (.ldVxK 3) ∧
    decodeWord 0b1111001000010101 = some (.ldDTVx 2) ∧ decodeWord 0b1111001000011000 = some (.ldSTVx 2) := by decide

/-- The check of each class that has illegal words refuses one (T40.4 to T40.10, T42.36 to T42.38, R74). -/
theorem test_wellFormed_refuses :
    [0x0000, 0x0123, 0x00E1, 0x5121, 0x8128, 0x812A, 0x812F, 0x9121, 0xE0A2, 0xF0FF, 0xFFFF].all
      (fun w => !wellFormedWord (BitVec.ofNat 16 w)) = true := by decide

theorem test_wellFormed_accepts :
    [0x00E0, 0x00EE, 0x1234, 0x5120, 0x8127, 0x812E, 0x9120, 0xD120, 0xE59E, 0xF165].all
      (fun w => wellFormedWord (BitVec.ofNat 16 w)) = true := by decide

/-- The decoder refuses the same words by name, and too few bytes (R70, R81). -/
theorem test_decode_refuses :
    decode [0x51, 0x21] = .error (.unknownInstruction 0x5121) ∧ decode [0x12] = .error .truncated := by decide

theorem test_encode_words :
    encode (.jp 0x234) = 0x1234 ∧ encode (.drw 1 2 5) = 0xD125 ∧ encode (.shl 1 2) = 0x812E ∧
    encode (.ldB 0xA) = 0xFA33 ∧ encode (.skp 5) = 0xE59E ∧ encode (.addImm 0 0xFF) = 0x70FF := by decide

theorem test_decodeTableWord :
    decodeTableWord 16 0x8126 = some (.shr 1 2) ∧ decodeTableWord 16 0x8128 = none := by decide

/-! ## Control flow (spec/41_control_flow.md) -/

/-- T41.8. -/
theorem test_ret_pops :
    let t := endState (cycle 0x00EE { State.reset with pc := 0x210, sp := 1, stack := State.reset.stack.set 0 0x206 })
    t.pc = 0x206 ∧ t.sp = 0 ∧ t.stack.get 0 = 0 := by decide

/-- T41.9. -/
theorem test_ret_empty :
    let t := endState (cycle 0x00EE { State.reset with pc := 0x210 })
    t.pc = 0x212 ∧ t.sp = 0 ∧ t.status = .running := by decide

/-- T41.3. -/
theorem test_jp : (endState (cycle 0x1FFF State.reset)).pc = 0xFFF := by decide

/-- T41.5. -/
theorem test_call :
    let t := endState (cycle 0x2400 { State.reset with pc := 0x300, sp := 15 })
    t.pc = 0x400 ∧ t.sp = 16 ∧ t.stack.get 15 = 0x302 := by decide

/-- T41.6. -/
theorem test_call_overflow :
    let r := cycle 0x2400 { State.reset with pc := 0x300, sp := 16 }
    record r = some (.stackOverflow, 0x300, some 0x2400, none) ∧ (endState r).pc = 0x302 := by decide

/-- T41.11 and T41.12. -/
theorem test_seImm :
    pcAndRegs (cycle 0x3342 (withRegs [(3, 0x42)])) [3] = some (0x204, [0x42]) ∧
    pcAndRegs (cycle 0x3342 (withRegs [(3, 0x41)])) [3] = some (0x202, [0x41]) := by decide

/-- T41.13 and T41.14. -/
theorem test_sneImm :
    pcAndRegs (cycle 0x4342 (withRegs [(3, 0x42)])) [3] = some (0x202, [0x42]) ∧
    pcAndRegs (cycle 0x4342 (withRegs [(3, 0x41)])) [3] = some (0x204, [0x41]) := by decide

/-- T41.15 and T41.16. -/
theorem test_seReg :
    pcAndRegs (cycle 0x5120 (withRegs [(1, 7), (2, 7)])) [] = some (0x204, []) ∧
    pcAndRegs (cycle 0x5120 (withRegs [(1, 7), (2, 8)])) [] = some (0x202, []) := by decide

/-- T41.18 and T41.19. -/
theorem test_sneReg :
    pcAndRegs (cycle 0x9120 (withRegs [(1, 7), (2, 8)])) [] = some (0x204, []) ∧
    pcAndRegs (cycle 0x9120 (withRegs [(1, 7), (2, 7)])) [] = some (0x202, []) := by decide

/-- T41.23: the sum does not wrap. -/
theorem test_jpV0 : (endState (cycle 0xBF10 (withRegs [(0, 0xFF)]))).pc = 0x100F := by decide

/-! ## Registers and ALU (spec/42_alu.md) -/

/-- T42.1. -/
theorem test_ldImm : pcAndRegs (cycle 0x6A9C State.reset) [0xA, 0xB] = some (0x202, [0x9C, 0]) := by decide

/-- T42.3: no carry into VF. -/
theorem test_addImm : pcAndRegs (cycle 0x7001 (withRegs [(0, 0xFF), (15, 7)])) [0, 15] = some (0x202, [0, 7]) := by
  decide

/-- T42.5. -/
theorem test_ldReg : pcAndRegs (cycle 0x8120 (withRegs [(2, 0x33)])) [1, 2] = some (0x202, [0x33, 0x33]) := by decide

/-- T42.6. -/
theorem test_orReg :
    pcAndRegs (cycle 0x8121 (withRegs [(1, 0x0F), (2, 0xF0), (15, 5)])) [1, 15] = some (0x202, [0xFF, 5]) := by decide

/-- T42.7. -/
theorem test_andReg :
    pcAndRegs (cycle 0x8122 (withRegs [(1, 0x3C), (2, 0x0F), (15, 5)])) [1, 15] = some (0x202, [0x0C, 5]) := by decide

/-- T42.8. -/
theorem test_xorReg :
    pcAndRegs (cycle 0x8123 (withRegs [(1, 0x3C), (2, 0x0F), (15, 5)])) [1, 15] = some (0x202, [0x33, 5]) := by decide

/-- T42.10 (S6). -/
theorem test_addReg :
    pcAndRegs (cycle 0x8124 (withRegs [(1, 0xBB), (2, 0x88)])) [1, 15] = some (0x202, [0x43, 1]) := by decide

/-- T42.15: with VF as destination the flag remains. -/
theorem test_addReg_flag :
    pcAndRegs (cycle 0x8F24 (withRegs [(15, 0x80), (2, 0x80)])) [15] = some (0x202, [1]) := by decide

/-- T42.18: equal operands need no borrow. -/
theorem test_subReg_equal :
    pcAndRegs (cycle 0x8125 (withRegs [(1, 5), (2, 5)])) [1, 15] = some (0x202, [0, 1]) := by decide

/-- T42.19. -/
theorem test_subReg_borrow :
    pcAndRegs (cycle 0x8125 (withRegs [(1, 0), (2, 1), (15, 1)])) [1, 15] = some (0x202, [0xFF, 0]) := by decide

/-- T42.22 (S7). -/
theorem test_shr : pcAndRegs (cycle 0x8126 (withRegs [(2, 0x11)])) [1, 15] = some (0x202, [0x08, 1]) := by decide

/-- T42.24: Vy is shifted, not Vx. -/
theorem test_shr_source :
    pcAndRegs (cycle 0x8126 (withRegs [(1, 0xFF), (2, 2)])) [1, 2, 15] = some (0x202, [1, 2, 0]) := by decide

/-- T42.26. -/
theorem test_subn :
    pcAndRegs (cycle 0x8127 (withRegs [(1, 0x45), (2, 0x88)])) [1, 15] = some (0x202, [0x43, 1]) := by decide

/-- T42.27. -/
theorem test_subn_borrow :
    pcAndRegs (cycle 0x8127 (withRegs [(1, 1), (2, 0)])) [1, 15] = some (0x202, [0xFF, 0]) := by decide

/-- T42.29. -/
theorem test_shl : pcAndRegs (cycle 0x812E (withRegs [(2, 0x88)])) [1, 15] = some (0x202, [0x10, 1]) := by decide

/-- T42.30. -/
theorem test_shl_low :
    pcAndRegs (cycle 0x812E (withRegs [(2, 0x7F)])) [1, 15] = some (0x202, [0xFE, 0]) := by decide

/-- T42.33. -/
theorem test_rnd : pcAndRegs (cycleWith ⟨false, [], 0xA7⟩ 0xC30F State.reset) [3] = some (0x202, [0x07]) := by decide

/-! ## The index register and memory (spec/43_index_memory.md) -/

/-- T43.1. -/
theorem test_ldI : (endState (cycle 0xA300 State.reset)).idx = 0x300 := by decide

/-- T43.3: the wrap. -/
theorem test_addI_wrap :
    let t := endState (cycle 0xF21E (withI 0xFFF [(2, 1), (15, 7)]))
    t.idx = 0 ∧ t.reg 15 = 1 := by decide

/-- T43.4 and T43.5: no overflow, under both values of the parameter. -/
theorem test_addI_parameter :
    let t := endState (cycle 0xF21E (withI 0xFFE [(2, 1), (15, 7)]))
    let u := endState (cycle 0xF21E { withI 0xFFE [(2, 1), (15, 7)] with config := ⟨defaultFont, true⟩ })
    t.idx = 0xFFF ∧ t.reg 15 = 7 ∧ u.idx = 0xFFF ∧ u.reg 15 = 0 := by decide

/-- T43.9: the high nibble is ignored. -/
theorem test_ldF : (endState (cycle 0xF029 (withRegs [(0, 0x1A)]))).idx = 0x082 := by decide

/-- T43.16: the last three bytes of memory. -/
theorem test_ldB :
    pcAndBytes (cycle 0xFA33 (withI 0xFFD [(0xA, 0x9C)])) [0xFFC, 0xFFD, 0xFFE, 0xFFF] = some (0x202, [0, 1, 5, 6]) := by
  decide

/-- T43.17 and T43.18: nothing is written. -/
theorem test_ldB_errors :
    record (cycle 0xFA33 (withI 0xFFE [(0xA, 0x9C)])) = some (.dataOutOfBounds, 0x200, some 0xFA33, some 0x1000) ∧
    record (cycle 0xFA33 (withI 0x04E [(0xA, 0x9C)])) = some (.fontWrite, 0x200, some 0xFA33, some 0x050) ∧
    (endState (cycle 0xFA33 (withI 0x04E [(0xA, 0x9C)]))).byteAt 0x04E = 0 := by decide

/-- T43.20: V2 is not stored. -/
theorem test_ldMemVx :
    pcAndBytes (cycle 0xF155 (withI 0x400 [(0, 0x11), (1, 0x22), (2, 0x33)])) [0x400, 0x401, 0x402] =
      some (0x202, [0x11, 0x22, 0]) := by decide

/-- T43.24. -/
theorem test_ldMemVx_font :
    record (cycle 0xF055 (withI 0x09F [(0, 0x11)])) = some (.fontWrite, 0x200, some 0xF055, some 0x09F) := by decide

/-- T43.27: the default glyph 0. -/
theorem test_ldVxMem :
    pcAndRegs (cycle 0xF465 (withI 0x050 [(5, 9)])) [0, 1, 2, 3, 4, 5] =
      some (0x202, [0xF0, 0x90, 0x90, 0x90, 0xF0, 9]) := by decide

/-- T43.29. -/
theorem test_ldVxMem_error :
    record (cycle 0xF165 (withI 0xFFF [])) = some (.dataOutOfBounds, 0x200, some 0xF165, some 0x1000) := by decide

/-! ## The display (spec/44_display.md) -/

/-- T44.1. -/
theorem test_cls : litCount (endState (cycle 0x00E0 (State.lit (State.lit State.reset 0 0) 63 31))).disp = 0 := by decide

/-- T44.3: clipped at the right edge, not wrapped. -/
theorem test_drw_clips :
    let d := (endState (cycle 0xD121 ((withI 0x300 [(1, 60)]).store 0x300 [0xFF]))).disp
    litCount d = 4 ∧ d.pixel 60 0 = true ∧ d.pixel 63 0 = true := by decide

/-- T44.6: a lit pixel turns off. -/
theorem test_drw_collision :
    let t := endState (cycle 0xD121 (State.lit ((withI 0x300 []).store 0x300 [0xC0]) 0 0))
    litCount t.disp = 1 ∧ t.disp.pixel 1 0 = true ∧ t.reg 15 = 1 := by decide

/-! ## Keypad and timers (spec/45_keypad_timers.md) -/

/-- T45.1 and T45.3: the whole byte is compared. -/
theorem test_skp :
    pcAndRegs (cycleWith ⟨false, [3, 10], 0⟩ 0xE59E (withRegs [(5, 0x0A)])) [] = some (0x204, []) ∧
    pcAndRegs (cycleWith ⟨false, [10], 0⟩ 0xE59E (withRegs [(5, 0x1A)])) [] = some (0x202, []) := by decide

/-- T45.5 and T45.6. -/
theorem test_sknp :
    pcAndRegs (cycleWith ⟨false, [10], 0⟩ 0xE5A1 (withRegs [(5, 0x0A)])) [] = some (0x202, []) ∧
    pcAndRegs (cycleWith ⟨false, [10], 0⟩ 0xE5A1 (withRegs [(5, 0x1A)])) [] = some (0x204, []) := by decide

/-- T45.8, with DT = 2: this cycle's tick comes first. -/
theorem test_ldVxDT :
    pcAndRegs (cycleWith ⟨true, [], 0⟩ 0xF307 { State.reset with dt := 2 }) [3] = some (0x202, [1]) := by decide

/-- T45.13 and T45.17: waiting keeps the pc, and the timers tick. -/
theorem test_ldVxK_waits :
    let t := endState (cycleWith ⟨true, [], 0⟩ 0xF30A { State.reset with pc := 0x220, dt := 5, st := 5 })
    t.pc = 0x220 ∧ t.dt = 4 ∧ t.st = 4 ∧ t.reg 3 = 0 := by decide

/-- T45.14: the first key in the host's order. -/
theorem test_ldVxK_takes :
    pcAndRegs (cycleWith ⟨false, [7, 2], 0⟩ 0xF30A { State.reset with pc := 0x220 }) [3] = some (0x222, [7]) := by decide

/-- T45.10. -/
theorem test_ldDTVx :
    (endState (cycleWith ⟨true, [], 0⟩ 0xF215 { withRegs [(2, 0x3C)] with dt := 0x10 })).dt = 0x3C := by decide

/-- T45.11. -/
theorem test_ldSTVx : (endState (cycleWith ⟨true, [], 0⟩ 0xF218 (withRegs [(2, 5)]))).st = 5 := by decide

/-! ## The cycle and the load (spec/40_cycle.md, spec/70_reset_and_hazards.md) -/

/-- T40.1. -/
theorem test_last_fetch : pcAndRegs (cycle 0x6A01 { State.reset with pc := 0xFFE }) [0xA] = some (0x1000, [1]) := by
  decide

/-- T40.2: no word is recorded and pc stays. -/
theorem test_fetch_out_of_bounds :
    let r := advance { State.reset with pc := 0xFFF } quiet
    record r = some (.outOfBounds, 0xFFF, none, none) ∧ (endState r).pc = 0xFFF := by decide

/-- T40.6: the timers tick also in a cycle that raises. -/
theorem test_unknown_instruction :
    let r := cycleWith ⟨true, [], 0⟩ 0xFFFF { State.reset with dt := 3, st := 1 }
    record r = some (.unknownInstruction, 0x200, some 0xFFFF, none) ∧ (endState r).pc = 0x202 ∧
      (endState r).dt = 2 ∧ (endState r).st = 0 := by decide

/-- T40.3: an odd pc is legal. -/
theorem test_odd_pc : pcAndRegs (cycle 0x6A01 { State.reset with pc := 0x201 }) [0xA] = some (0x203, [1]) := by decide

/-- S1 and S2. -/
theorem test_load :
    (match load defaultConfig [0x12, 0x34, 0xAB] with
      | .ok s => (s.pc, [0x200, 0x201, 0x202, 0x203, 0x050, 0x09F].map s.byteAt)
      | .error _ => (0, [])) = (0x200, [0x12, 0x34, 0xAB, 0, 0xF0, 0x80]) := by decide

/-- S3. -/
theorem test_load_empty : load defaultConfig [] = .error .emptyProgram := by decide

/-- The codes of R200. -/
theorem test_codes :
    [LoadError.emptyProgram, .romTooLarge].map LoadError.code = [1, 2] ∧
    [CycleError.outOfBounds, .unknownInstruction, .stackOverflow, .dataOutOfBounds, .fontWrite].map CycleError.code =
      [3, 4, 5, 6, 7] := by decide

/-! ## Witnesses: states and operands that meet the hypotheses of the statements -/

/-- ReturnPopsPcOrDoesNothing: an empty stack, one entry, and a full stack. -/
theorem witness_return :
    State.reset.sp.val = 0 ∧ ({ State.reset with sp := 1 } : State).sp.val = (0 : Fin 16).val + 1 ∧
    ({ State.reset with sp := 16 } : State).sp.val = (15 : Fin 16).val + 1 := by decide

/-- CallPushesPcOrOverflows: the first and the last entry free, and none. -/
theorem witness_call :
    State.reset.sp.val = (0 : Fin 16).val ∧ ({ State.reset with sp := 15 } : State).sp.val = (15 : Fin 16).val ∧
    ({ State.reset with sp := 16 } : State).sp.val = 16 := by decide

/-- CallThenReturnRestoresPcAndStack: the two cycles of S5, here with the last entry. -/
theorem witness_call_return :
    ({ State.reset with sp := 15 } : State).stackOk ∧
    ∃ t u : State, exec (.call 0x206) { State.reset with sp := 15 } = .next t ∧ u.stack = t.stack ∧ u.sp = t.sp := by
  refine ⟨?_, _, _, rfl, rfl, rfl⟩
  unfold State.stackOk
  decide

/-- SkipsComparingImmediate and SkipsComparingRegisters: equal and unequal. -/
theorem witness_compare :
    (withRegs [(3, 0x42)]).reg 3 = 0x42 ∧ (withRegs [(3, 0x41)]).reg 3 ≠ 0x42 ∧
    (withRegs [(1, 7), (2, 7)]).reg 1 = (withRegs [(1, 7), (2, 7)]).reg 2 ∧
    (withRegs [(1, 7)]).reg 1 ≠ (withRegs [(1, 7)]).reg 2 := by decide

/-- AddSetsCarryLast: a destination beside VF, and the sums 256 and 255. -/
theorem witness_add :
    (1 : Reg) ≠ VF ∧ 255 < ((withRegs [(1, 0xFF), (2, 1)]).reg 1).toNat + ((withRegs [(1, 0xFF), (2, 1)]).reg 2).toNat ∧
    ((withRegs [(1, 0xFF)]).reg 1).toNat + ((withRegs [(1, 0xFF)]).reg 2).toNat ≤ 255 := by decide

/-- SubtractionsSetNoBorrowLast and ShiftsTakeVyAndSetShiftedOutBitLast: equal operands, and a borrow of one. -/
theorem witness_sub :
    (1 : Reg) ≠ VF ∧ (withRegs [(1, 5), (2, 5)]).reg 2 ≤ (withRegs [(1, 5), (2, 5)]).reg 1 ∧
    (withRegs [(2, 1)]).reg 1 < (withRegs [(2, 1)]).reg 2 := by decide

/-- AddToIndexWrapsAndFlags: the sums 0x1000 and 0xFFF, and both values of the parameter. -/
theorem witness_addI :
    0xFFF < (withI 0xFFF [(2, 1)]).idx.toNat + ((withI 0xFFF [(2, 1)]).reg 2).toNat ∧
    (withI 0xFFE [(2, 1)]).idx.toNat + ((withI 0xFFE [(2, 1)]).reg 2).toNat ≤ 0xFFF ∧
    (withI 0xFFE [(2, 1)]).config.fx1eClearsVF = false ∧
    ({ withI 0xFFE [(2, 1)] with config := ⟨defaultFont, true⟩ } : State).config.fx1eClearsVF = true := by decide

/-- BcdStoresDecimalDigits: the ranges at the top of memory and on both sides of the font that may be written, and the
first that may not. -/
theorem witness_bcd :
    (withI 0xFFD []).memOk ∧ (∀ k, k < 3 → Writable ((withI 0xFFD []).dataBase + k)) ∧
    (∀ k, k < 3 → Writable ((withI 0x04D []).dataBase + k)) ∧ (∀ k, k < 3 → Writable ((withI 0x0A0 []).dataBase + k)) ∧
    LowestFailing Writable (withI 0xFFE []).dataBase 3 0x1000 ∧ LowestFailing Writable (withI 0x04E []).dataBase 3 0x050 ∧
    LowestFailing Writable (withI 0x09F []).dataBase 3 0x09F :=
  ⟨rfl, (checkWrite_eq_none_iff _ 3).1 rfl, (checkWrite_eq_none_iff _ 3).1 rfl, (checkWrite_eq_none_iff _ 3).1 rfl,
    ((checkWrite_eq_some_iff _ 3 .dataOutOfBounds _).1 rfl).2, ((checkWrite_eq_some_iff _ 3 .fontWrite _).1 rfl).2,
    ((checkWrite_eq_some_iff _ 3 .fontWrite _).1 rfl).2⟩

/-- BlockStoreWritesRegisters: all sixteen registers at 0xFF0 and at 0xFF1, and one at the last byte of the font. -/
theorem witness_block_store :
    (withI 0xFF0 []).memOk ∧ (∀ k, k < (15 : Reg).val + 1 → Writable ((withI 0xFF0 []).dataBase + k)) ∧
    (∀ k, k < (0 : Reg).val + 1 → Writable ((withI 0x0A0 []).dataBase + k)) ∧
    LowestFailing Writable (withI 0xFF1 []).dataBase ((15 : Reg).val + 1) 0x1000 ∧
    LowestFailing Writable (withI 0x09F []).dataBase ((0 : Reg).val + 1) 0x09F :=
  ⟨rfl, (checkWrite_eq_none_iff _ _).1 rfl, (checkWrite_eq_none_iff _ _).1 rfl,
    ((checkWrite_eq_some_iff _ _ .dataOutOfBounds _).1 rfl).2, ((checkWrite_eq_some_iff _ _ .fontWrite _).1 rfl).2⟩

/-- BlockLoadReadsRegisters and DrawFlipsCoveredPixelsAndFlagsCollision: the last byte of memory, a sprite of no rows
at an address that does not exist, and the first ranges past memory. -/
theorem witness_read :
    (∀ k, k < (0 : Reg).val + 1 → Readable ((withI 0xFFF []).dataBase + k)) ∧
    LowestFailing Readable (withI 0xFFF []).dataBase ((1 : Reg).val + 1) 0x1000 ∧
    (∀ k, k < (1 : Fin 16).val → Readable ((withI 0xFFF []).dataBase + k)) ∧
    (∀ k, k < (0 : Fin 16).val → Readable ((withI 0x1000 []).dataBase + k)) ∧
    LowestFailing Readable (withI 0xFFE []).dataBase (3 : Fin 16).val 0x1000 :=
  ⟨(checkRead_eq_none_iff _ _).1 rfl, ((checkRead_eq_some_iff _ _ .dataOutOfBounds _).1 rfl).2,
    (checkRead_eq_none_iff _ _).1 rfl, (checkRead_eq_none_iff _ _).1 rfl,
    ((checkRead_eq_some_iff _ _ .dataOutOfBounds _).1 rfl).2⟩

/-- BlockStoreThenLoadRestoresRegisters: a store of two registers, and a later state. -/
theorem witness_store_load :
    (withI 0xFFE [(0, 7), (1, 8)]).memOk ∧
    ∃ t u : State, exec (.ldMemVx 1) (withI 0xFFE [(0, 7), (1, 8)]) = .next t ∧ u.mem = t.mem ∧ u.config = t.config ∧
      u.idx = t.idx :=
  ⟨rfl, _, _, rfl, rfl, rfl, rfl⟩

/-- DrawingTwiceRestoresDisplay: a draw of one row. -/
theorem witness_draw : ∃ t, exec (.drw 1 2 1) ((withI 0x300 []).store 0x300 [0x80]) = .next t := ⟨_, rfl⟩

/-- KeySkipsTestTheSnapshot and KeyWaitRewindsOrTakesFirstKey: a pressed key, none that fits, and no key at all. -/
theorem witness_keys :
    (∃ k ∈ ((withRegs [(5, 10)]).withInput ⟨false, [3, 10], 0⟩).input.keys,
      k.val = (((withRegs [(5, 10)]).withInput ⟨false, [3, 10], 0⟩).reg 5).toNat) ∧
    (∀ k ∈ ((withRegs [(5, 0x1A)]).withInput ⟨false, [10], 0⟩).input.keys,
      k.val ≠ (((withRegs [(5, 0x1A)]).withInput ⟨false, [10], 0⟩).reg 5).toNat) ∧
    (State.reset.withInput quiet).input.keys = [] ∧
    (State.reset.withInput ⟨false, [7, 2], 0⟩).input.keys = 7 :: [2] := by decide

/-- WaitingCycleKeepsPcAndTicks: FX0A at the last address a fetch fits, with a tick. -/
theorem witness_waiting :
    let s := (({ State.reset with pc := 0xFFE } : State).withFetchWord 16 0xF30A).withInput ⟨true, [], 0⟩
    s.status = .running ∧ s.pc.toNat + 2 ≤ 4096 ∧ decodeWord s.wordAtPc = some (.ldVxK 3) ∧ s.input.keys = [] := by
  decide

/-- EncodeOfDecodeIsWord, DecoderFollowsOpcodeTable and NoWordFitsTwoRows: a word that decodes, and its row. -/
theorem witness_decode :
    decodeWord 0x8126 = some (.shr 1 2) ∧ (⟨0xF00F, 0x8006⟩ : OpcodeRow) ∈ opcodeTable ∧
    (0x8126 : Word) &&& 0xF00F = 0x8006 := by decide

/-- CycleRunsFourSteps and ErrorRecordsAddressWordAndDetail: the first pc at which no fetch fits, the last at which one
does with a word that is no instruction, and with one whose instruction completes or raises. -/
theorem witness_cycle :
    State.reset.status = .running ∧ 4096 < ({ State.reset with pc := 0xFFF } : State).pc.toNat + 2 ∧
    ({ State.reset with pc := 0xFFE } : State).pc.toNat + 2 ≤ 4096 ∧
    decodeWord ({ State.reset with pc := 0xFFE } : State).wordAtPc = none ∧
    decodeWord (State.reset.withFetchWord 16 0x2400).wordAtPc = some (.call 0x400) := by decide

theorem witness_cycle_exec :
    (∃ t, exec (.call 0x400) { State.reset.ticked with pc := State.reset.pc + 2 } = .next t) ∧
    ∃ f, exec (.call 0x400) { ({ State.reset with sp := 16 } : State).ticked with pc := State.reset.pc + 2 } = .fault f :=
  ⟨⟨_, rfl⟩, ⟨_, rfl⟩⟩

/-- PlacedWordIsFetchedAndRun: with a pc at which the word fits, and with one at which it does not. -/
theorem witness_placed :
    State.reset.memOk ∧ decodeTableWord 16 0x8126 = some (.shr 1 2) ∧ State.reset.pc.toNat + 2 ≤ 4096 ∧
    ({ State.reset with pc := 0xFFF } : State).memOk ∧ 4096 < ({ State.reset with pc := 0xFFF } : State).pc.toNat + 2 :=
  ⟨rfl, by decide, by decide, rfl, by decide⟩

/-- HaltedCoreReportsSameError and the halted clause of CycleRunsFourSteps. -/
theorem witness_halted :
    (endState (advance { State.reset with pc := 0xFFF } quiet)).status = .halted .outOfBounds ⟨0xFFF, none, none⟩ := by
  decide

/-- FaultedCoreNeverRunsAgain, ErrorsArePrecise, ErrorRecordsAddressWordAndDetail and StepKeepsInvariant: a step of a
running core that raises, once for each error that records no data address. -/
theorem witness_step_faults :
    [{ State.reset with pc := 0xFFF }, State.reset, ({ State.reset with sp := 16 } : State).withFetchWord 16 0x2400].map
        (fun s => (s.status, (record (step (s.withInput quiet))).map fun r => (r.1, r.2.2.2))) =
      [CycleError.outOfBounds, .unknownInstruction, .stackOverflow].map
        (fun e => (Status.running, some (e, none))) := by decide

/-- The same for the errors that record one: each instruction that touches memory, with the lowest failing address of
its range (T44.11, T43.29, T43.23 and T43.18). -/
theorem witness_step_faults_memory :
    [(withI 0xFFE [(2, 31)]).withFetchWord 16 0xD123, (withI 0xFFF []).withFetchWord 16 0xF165,
      (withI 0xFF1 []).withFetchWord 16 0xFF55, (withI 0x04E []).withFetchWord 16 0xFA33].map
        (fun s => (s.status, (record (step (s.withInput quiet))).map fun r => (r.1, r.2.2.2))) =
      [(CycleError.dataOutOfBounds, 0x1000), (.dataOutOfBounds, 0x1000), (.dataOutOfBounds, 0x1000), (.fontWrite, 0x050)].map
        (fun e => (Status.running, some (e.1, some e.2))) := by decide

theorem witness_step_fault : ∃ f, step State.reset = .fault f := ⟨_, rfl⟩

/-- InstructionsRaiseOnlyTheirErrors: the three errors an instruction can raise, on their instructions. -/
theorem witness_raises :
    (∃ f, exec (.call 0) { State.reset with sp := 16 } = .fault f ∧ f.error = .stackOverflow) ∧
    (∃ f, exec (.ldVxMem 1) (withI 0xFFF []) = .fault f ∧ f.error = .dataOutOfBounds) ∧
    ∃ f, exec (.ldB 0) (withI 0x04E []) = .fault f ∧ f.error = .fontWrite :=
  ⟨⟨_, rfl, rfl⟩, ⟨_, rfl, rfl⟩, ⟨_, rfl, rfl⟩⟩

/-- DisplayAndStackHaveOnlyTheirWriters and IndexTimersAndMemoryHaveOnlyTheirWriters: an instruction that writes none of
these, and completes. -/
theorem witness_no_writer :
    (∃ t, exec (.ldImm 0 7) State.reset = .next t) ∧ Instr.ldImm 0 7 ≠ .cls ∧ Instr.ldImm 0 7 ≠ .ret ∧
    (∀ x y n, Instr.ldImm 0 7 ≠ .drw x y n) ∧ (∀ nnn, Instr.ldImm 0 7 ≠ .call nnn) ∧ (∀ nnn, Instr.ldImm 0 7 ≠ .ldI nnn) ∧
    (∀ x, Instr.ldImm 0 7 ≠ .addI x ∧ Instr.ldImm 0 7 ≠ .ldF x) ∧ (∀ x, Instr.ldImm 0 7 ≠ .ldDTVx x) ∧
    (∀ x, Instr.ldImm 0 7 ≠ .ldSTVx x) ∧ ∀ x, Instr.ldImm 0 7 ≠ .ldB x ∧ Instr.ldImm 0 7 ≠ .ldMemVx x := by
  refine ⟨⟨_, rfl⟩, ?_⟩
  simp

/-- FlagHasOnlyItsWriters: an addition with a carry changes VF. -/
theorem witness_flag :
    ∃ t, exec (.addReg 1 2) (withRegs [(1, 0xBB), (2, 0x88)]) = .next t ∧
      t.reg VF ≠ (withRegs [(1, 0xBB), (2, 0x88)]).reg VF :=
  ⟨_, rfl, by decide⟩

/-- InputsAreReadOnlyByTheirReaders: EX9E under inputs with the same keys and another tick and random byte, completing;
CXNN under inputs with the same random byte; and a call that raises. -/
theorem witness_inputs :
    ({ State.reset.withInput quiet with inputs := [⟨true, [], 9⟩], cycle := 3 } : State).input.keys =
      (State.reset.withInput quiet).input.keys ∧
    ({ State.reset.withInput quiet with inputs := [⟨true, [4], 0⟩], cycle := 3 } : State).input.rand =
      (State.reset.withInput quiet).input.rand ∧
    (∃ t, exec (.skp 0) (State.reset.withInput quiet) = .next t) ∧ (∃ t, exec (.rnd 0 7) (State.reset.withInput quiet) = .next t) ∧
    ∃ f, exec (.call 0) { State.reset.withInput quiet with sp := 16 } = .fault f :=
  ⟨rfl, rfl, ⟨_, rfl⟩, ⟨_, rfl⟩, ⟨_, rfl⟩⟩

/-- StepKeepsConfigAndFontBytes and StepKeepsInvariant: a step that completes, from a state that meets the invariant. -/
theorem witness_step_next :
    (State.reset.withFetchWord 16 0x1234).Inv ∧ ∃ t, step (State.reset.withFetchWord 16 0x1234) = .next t := by
  refine ⟨⟨rfl, ?_, ?_, ?_, ?_⟩, _, rfl⟩
  · unfold State.fontOk; decide
  · unfold State.indexOk; decide
  · unfold State.pcOk; decide
  · unfold State.stackOk; decide

/-- StepKeepsInvariant: a step that raises, from a state that meets the invariant. -/
theorem witness_step_fault_inv : State.reset.Inv ∧ ∃ f, step State.reset = .fault f := by
  refine ⟨⟨rfl, ?_, ?_, ?_, ?_⟩, _, rfl⟩
  · unfold State.fontOk; decide
  · unfold State.indexOk; decide
  · unfold State.pcOk; decide
  · unfold State.stackOk; decide

/-- LoadFollowsTheRule: the lengths at the ends of each clause's range, and addresses under each clause about a byte. -/
theorem witness_load :
    ([] : List Byte).length = 0 ∧ 3584 < (List.replicate 3585 (0 : Byte)).length ∧ 0 < ([0] : List Byte).length ∧
    (List.replicate 3584 (0 : Byte)).length ≤ 3584 ∧ 0x04F < 4096 ∧ ¬ (0x050 ≤ 0x04F ∧ 0x04F ≤ 0x09F) ∧
    ¬ (0x200 ≤ 0x04F ∧ 0x04F < 0x200 + 1) ∧ ¬ (0x200 ≤ 0x201 ∧ 0x201 < 0x200 + ([0] : List Byte).length) := by
  simp only [List.length_replicate]
  decide

/-- ReachableStatesMeetInvariantAndHoldFont: the state after S4's load is reached, and so is the one after its jump. -/
theorem witness_reachable :
    ∃ s t, load defaultConfig [0x12, 0x34] = .ok s ∧ advance s quiet = .next t ∧ Reachable defaultConfig t :=
  let s := (State.initial defaultConfig).store programBase [0x12, 0x34]
  have h : advance s quiet = .next (endState (advance s quiet)) := eq_next_endState (by decide)
  ⟨s, _, rfl, h, .advance (.load (rom := [0x12, 0x34]) rfl) h⟩

/-- CanonicalMemoriesReadAlikeAreEqual: writing a byte back gives a memory that reads as the first did. -/
theorem witness_canonical :
    Memory.wf defaultFont [] = true ∧
    Memory.wf defaultFont (Memory.write defaultFont (Memory.write defaultFont [] 0x300 7) 0x300 0) = true ∧
    ∀ a, Memory.read defaultFont [] a =
      Memory.read defaultFont (Memory.write defaultFont (Memory.write defaultFont [] 0x300 7) 0x300 0) a :=
  ⟨rfl, rfl, fun _ => rfl⟩

end Sys2Proof.Tests
end

/-! PROOFS. The decoder against the opcode table (spec/30_encoding.md R73). A row's mask keeps the opcode class alone,
or the class with the low nibble or the low byte, so that fitting the row is an equation about the very fields on which
the decoder branches. -/

namespace Sys2Proof

/-! ## Fitting a row, as an equation of fields -/

theorem and_maskOp_of_field {w : Word} {op : Nat} (hop : fieldOp w = op) :
    w &&& 0xF000 = BitVec.ofNat 16 (op * 0x1000) := by
  rw [← hop, fieldOp, ← toNat_and_maskOp, BitVec.ofNat_toNat, BitVec.setWidth_eq]

theorem and_maskOpN_of_fields {w : Word} {op n : Nat} (hop : fieldOp w = op) (hn : bits w 3 0 = n) :
    w &&& 0xF00F = BitVec.ofNat 16 (op * 0x1000 + n) := by
  rw [← hop, ← hn, fieldOp, ← toNat_and_maskOpN, BitVec.ofNat_toNat, BitVec.setWidth_eq]

theorem and_maskOpNN_of_fields {w : Word} {op nn : Nat} (hop : fieldOp w = op) (hnn : bits w 7 0 = nn) :
    w &&& 0xF0FF = BitVec.ofNat 16 (op * 0x1000 + nn) := by
  rw [← hop, ← hnn, fieldOp, ← toNat_and_maskOpNN, BitVec.ofNat_toNat, BitVec.setWidth_eq]

theorem field_of_and_maskOp {w : Word} {op : Nat} (hop : op < 0x10)
    (h : w &&& 0xF000 = BitVec.ofNat 16 (op * 0x1000)) : fieldOp w = op := by
  have hw := toNat_and_maskOp w
  rw [h, BitVec.toNat_ofNat] at hw
  rw [fieldOp]; omega

theorem fields_of_and_maskOpN {w : Word} {op n : Nat} (hop : op < 0x10) (hn : n < 0x10)
    (h : w &&& 0xF00F = BitVec.ofNat 16 (op * 0x1000 + n)) : fieldOp w = op ∧ bits w 3 0 = n := by
  have hw := toNat_and_maskOpN w
  have hlow : bits w 3 0 < 0x10 := Nat.mod_lt _ (by decide)
  rw [h, BitVec.toNat_ofNat] at hw
  rw [fieldOp]; omega

theorem fields_of_and_maskOpNN {w : Word} {op nn : Nat} (hop : op < 0x10) (hnn : nn < 0x100)
    (h : w &&& 0xF0FF = BitVec.ofNat 16 (op * 0x1000 + nn)) : fieldOp w = op ∧ bits w 7 0 = nn := by
  have hw := toNat_and_maskOpNN w
  have hlow : bits w 7 0 < 0x100 := Nat.mod_lt _ (by decide)
  rw [h, BitVec.toNat_ofNat] at hw
  rw [fieldOp]; omega

/-! ## What a word decodes to has a row that the word fits -/

theorem Instr.row_mem_opcodeTable (i : Instr) : i.row ∈ opcodeTable := by
  cases i <;> simp [Instr.row, opcodeTable]

theorem decodeClass8_fits_row {w : Word} {i : Instr} (hop : fieldOp w = 0x8) (h : decodeClass8 w = some i) :
    w &&& i.row.mask = i.row.pat := by
  unfold decodeClass8 at h
  split at h <;> cases h
  all_goals exact and_maskOpN_of_fields hop ‹bits w 3 0 = _›

theorem decodeClassE_fits_row {w : Word} {i : Instr} (hop : fieldOp w = 0xE) (h : decodeClassE w = some i) :
    w &&& i.row.mask = i.row.pat := by
  unfold decodeClassE at h
  split at h <;> cases h
  all_goals exact and_maskOpNN_of_fields hop ‹bits w 7 0 = _›

theorem decodeClassF_fits_row {w : Word} {i : Instr} (hop : fieldOp w = 0xF) (h : decodeClassF w = some i) :
    w &&& i.row.mask = i.row.pat := by
  unfold decodeClassF at h
  split at h <;> cases h
  all_goals exact and_maskOpNN_of_fields hop ‹bits w 7 0 = _›

/-- Class 0 compares the whole word, classes 5 and 9 ask for a low nibble, 8, E and F have decoders of their own, and
every other class is one instruction. -/
theorem decodeWord_fits_row {w : Word} {i : Instr} (h : decodeWord w = some i) :
    w &&& i.row.mask = i.row.pat := by
  unfold decodeWord at h
  split at h
  case h_1 hop =>
    split at h
    · cases h; subst w; decide
    · split at h <;> cases h
      subst w; decide
  case h_6 hop | h_10 hop =>
    split at h <;> cases h
    exact and_maskOpN_of_fields hop ‹bits w 3 0 = _›
  case h_9 hop => exact decodeClass8_fits_row hop h
  case h_15 hop => exact decodeClassE_fits_row hop h
  case h_16 hop => exact decodeClassF_fits_row hop h
  case h_17 => cases h
  all_goals
    cases h
    exact and_maskOp_of_field ‹fieldOp w = _›

/-! ## A word that fits a row decodes to an instruction of that row -/

/-- The opcode classes that are one instruction each: mask 0xF000. -/
def opRows : List Nat := [0x1, 0x2, 0x3, 0x4, 0x6, 0x7, 0xA, 0xB, 0xC, 0xD]

/-- The classes and low nibbles that select an instruction together: mask 0xF00F. -/
def opNRows : List (Nat × Nat) :=
  [(0x5, 0x0), (0x8, 0x0), (0x8, 0x1), (0x8, 0x2), (0x8, 0x3), (0x8, 0x4), (0x8, 0x5), (0x8, 0x6), (0x8, 0x7),
   (0x8, 0xE), (0x9, 0x0)]

/-- The classes and low bytes that select an instruction together: mask 0xF0FF. -/
def opNNRows : List (Nat × Nat) :=
  [(0xE, 0x9E), (0xE, 0xA1), (0xF, 0x07), (0xF, 0x0A), (0xF, 0x15), (0xF, 0x18), (0xF, 0x1E), (0xF, 0x29),
   (0xF, 0x33), (0xF, 0x55), (0xF, 0x65)]

/-- The rows of R73, grouped by their mask. -/
theorem opcodeTable_cases : ∀ r ∈ opcodeTable,
    (r = Instr.row .cls ∨ r = Instr.row .ret) ∨
    (∃ op ∈ opRows, r = ⟨0xF000, BitVec.ofNat 16 (op * 0x1000)⟩) ∨
    (∃ p ∈ opNRows, r = ⟨0xF00F, BitVec.ofNat 16 (p.1 * 0x1000 + p.2)⟩) ∨
    ∃ p ∈ opNNRows, r = ⟨0xF0FF, BitVec.ofNat 16 (p.1 * 0x1000 + p.2)⟩ := by decide

theorem decodeWord_of_opRow {w : Word} {op : Nat} (hop : op ∈ opRows)
    (h : w &&& 0xF000 = BitVec.ofNat 16 (op * 0x1000)) :
    ∃ i, decodeWord w = some i ∧ i.row = ⟨0xF000, BitVec.ofNat 16 (op * 0x1000)⟩ := by
  have hlt : ∀ op ∈ opRows, op < 0x10 := by decide
  have hw : fieldOp w = op := field_of_and_maskOp (hlt op hop) h
  unfold decodeWord
  fin_cases hop <;> simp only [hw] <;> exact ⟨_, rfl, rfl⟩

theorem decodeWord_of_opNRow {w : Word} {p : Nat × Nat} (hp : p ∈ opNRows)
    (h : w &&& 0xF00F = BitVec.ofNat 16 (p.1 * 0x1000 + p.2)) :
    ∃ i, decodeWord w = some i ∧ i.row = ⟨0xF00F, BitVec.ofNat 16 (p.1 * 0x1000 + p.2)⟩ := by
  have hlt : ∀ p ∈ opNRows, p.1 < 0x10 ∧ p.2 < 0x10 := by decide
  obtain ⟨hop, hn⟩ := fields_of_and_maskOpN (hlt p hp).1 (hlt p hp).2 h
  unfold decodeWord decodeClass8
  fin_cases hp <;> simp only [hop, hn] <;> exact ⟨_, rfl, rfl⟩

theorem decodeWord_of_opNNRow {w : Word} {p : Nat × Nat} (hp : p ∈ opNNRows)
    (h : w &&& 0xF0FF = BitVec.ofNat 16 (p.1 * 0x1000 + p.2)) :
    ∃ i, decodeWord w = some i ∧ i.row = ⟨0xF0FF, BitVec.ofNat 16 (p.1 * 0x1000 + p.2)⟩ := by
  have hlt : ∀ p ∈ opNNRows, p.1 < 0x10 ∧ p.2 < 0x100 := by decide
  obtain ⟨hop, hnn⟩ := fields_of_and_maskOpNN (hlt p hp).1 (hlt p hp).2 h
  unfold decodeWord decodeClassE decodeClassF
  fin_cases hp <;> simp only [hop, hnn] <;> exact ⟨_, rfl, rfl⟩

theorem decodeWord_of_fits_row {w : Word} {r : OpcodeRow} (hr : r ∈ opcodeTable) (h : w &&& r.mask = r.pat) :
    ∃ i, decodeWord w = some i ∧ i.row = r := by
  obtain (rfl | rfl) | ⟨op, hop, rfl⟩ | ⟨p, hp, rfl⟩ | ⟨p, hp, rfl⟩ := opcodeTable_cases r hr
  · obtain rfl : w = 0x00E0 := (and_maskAll w).symm.trans h
    exact ⟨.cls, by decide, rfl⟩
  · obtain rfl : w = 0x00EE := (and_maskAll w).symm.trans h
    exact ⟨.ret, by decide, rfl⟩
  · exact decodeWord_of_opRow hop h
  · exact decodeWord_of_opNRow hp h
  · exact decodeWord_of_opNNRow hp h

/-- Settles O29: the decoder's branches against the rows, and the rows, mask by mask, against the decoder's branches. -/
theorem decoderFollowsOpcodeTable : Obligations.DecoderFollowsOpcodeTable := by
  unfold Obligations.DecoderFollowsOpcodeTable
  exact fun w => ⟨fun i h => ⟨i.row_mem_opcodeTable, decodeWord_fits_row h⟩, fun _ hr h => decodeWord_of_fits_row hr h⟩

end Sys2Proof

/-! PROOFS. The cycle (spec/40_cycle.md): what a step of a halted core answers (R91). -/

namespace Sys2Proof.Machine

theorem step_of_halted {s : State} {e : CycleError} {info : ErrorInfo} (hs : s.status = .halted e info) :
    step s = .fault (Fault.ofError e s) := by
  simp only [step, hs]

end Sys2Proof.Machine

namespace Sys2Proof

open Machine

/-- Settles O36: supplying an input keeps the status, so the cycle is a step of a halted core. -/
theorem haltedCoreReportsSameError : Obligations.HaltedCoreReportsSameError := by
  unfold Obligations.HaltedCoreReportsSameError
  intro s e info inp hs
  have hin : (s.withInput inp).status = .halted e info := (s.withInput_status inp).trans hs
  exact ⟨Fault.ofError e (s.withInput inp), step_of_halted hin, Fault.error_ofError e _, Fault.left_ofError e _⟩

end Sys2Proof

/-! PROOFS. Encodings, for every statement that names an instruction's word: the word of `encode` decodes to the
instruction, and no other word does (spec/30_encoding.md R71, R73). -/

namespace Sys2Proof

/-! ## A word is put together from its fields -/

theorem wordNNN_fields {w : Word} {op : Nat} (hop : fieldOp w = op) : wordNNN op (fieldNNN w) = w := by
  have hw := w.isLt
  subst hop
  apply BitVec.eq_of_toNat_eq
  simp only [wordNNN, fieldOp, fieldNNN, bits, BitVec.toNat_ofNat]; omega

theorem wordXYN_fields {w : Word} {op n : Nat} (hop : fieldOp w = op) (hn : bits w 3 0 = n) :
    wordXYN op (fieldX w) (fieldY w) n = w := by
  subst hop hn
  rw [wordXYN, ← word_toNat_eq, BitVec.ofNat_toNat, BitVec.setWidth_eq]

theorem wordXNN_fields {w : Word} {op : Nat} (hop : fieldOp w = op) : wordXNN op (fieldX w) (fieldNN w) = w := by
  have hw := w.isLt
  subst hop
  apply BitVec.eq_of_toNat_eq
  simp only [wordXNN, fieldOp, fieldX, fieldNN, bits, BitVec.toNat_ofNat]; omega

/-- Where the low byte is known, it is the word's `nn`. -/
theorem wordXNN_fields_of_low {w : Word} {op nn : Nat} (hop : fieldOp w = op) (hnn : bits w 7 0 = nn) :
    wordXNN op (fieldX w) (BitVec.ofNat 8 nn) = w := by
  subst hnn
  exact wordXNN_fields hop

/-! ## A word that decodes is the encoding of what it decodes to -/

theorem encode_of_decodeClass8 {w : Word} {i : Instr} (hop : fieldOp w = 0x8) (h : decodeClass8 w = some i) :
    encode i = w := by
  unfold decodeClass8 at h
  split at h <;> cases h
  all_goals exact wordXYN_fields hop ‹bits w 3 0 = _›

theorem encode_of_decodeClassE {w : Word} {i : Instr} (hop : fieldOp w = 0xE) (h : decodeClassE w = some i) :
    encode i = w := by
  unfold decodeClassE at h
  split at h <;> cases h
  all_goals exact wordXNN_fields_of_low hop ‹bits w 7 0 = _›

theorem encode_of_decodeClassF {w : Word} {i : Instr} (hop : fieldOp w = 0xF) (h : decodeClassF w = some i) :
    encode i = w := by
  unfold decodeClassF at h
  split at h <;> cases h
  all_goals exact wordXNN_fields_of_low hop ‹bits w 7 0 = _›

/-- The classes of the decoder by the form of their words: whole words, op.nnn, op.x.nn, op.x.y.n, and the three classes
with a decoder of their own. -/
theorem encode_of_decodeWord {w : Word} {i : Instr} (h : decodeWord w = some i) : encode i = w := by
  unfold decodeWord at h
  split at h
  case h_1 hop =>
    split at h
    · cases h; exact ‹w = _›.symm
    · split at h <;> cases h
      exact ‹w = _›.symm
  case h_2 hop | h_3 hop | h_11 hop | h_12 hop => cases h; exact wordNNN_fields hop
  case h_4 hop | h_5 hop | h_7 hop | h_8 hop | h_13 hop => cases h; exact wordXNN_fields hop
  case h_6 hop | h_10 hop =>
    split at h <;> cases h
    exact wordXYN_fields hop ‹bits w 3 0 = _›
  case h_14 hop => cases h; exact wordXYN_fields hop rfl
  case h_9 hop => exact encode_of_decodeClass8 hop h
  case h_15 hop => exact encode_of_decodeClassE hop h
  case h_16 hop => exact encode_of_decodeClassF hop h
  case h_17 => cases h

/-! ## The encoding of an instruction decodes to it -/

theorem decodeWord_encode (i : Instr) : decodeWord (encode i) = some i := by
  cases i
  case cls | ret => decide
  case drw x y n =>
    obtain ⟨hop, hx, hy, hn⟩ := fields_wordXYN (op := 0xD) (by decide) n.isLt x y
    have hN : fieldN (wordXYN 0xD x y n.val) = n := Fin.ext hn
    simp only [encode, decodeWord, hop, hx, hy, hN]
  case jp | call | ldI | jpV0 => simp (disch := decide) only [encode, decodeWord, fields_wordNNN]
  case seImm | sneImm | ldImm | addImm | rnd => simp (disch := decide) only [encode, decodeWord, fields_wordXNN]
  case seReg | sneReg => simp (disch := decide) only [encode, decodeWord, fields_wordXYN, if_true]
  case ldReg | orReg | andReg | xorReg | addReg | subReg | shr | subn | shl =>
    simp (disch := decide) only [encode, decodeWord, decodeClass8, fields_wordXYN]
  case skp | sknp => simp (disch := decide) [encode, decodeWord, decodeClassE, fields_wordXNN]
  case ldVxDT | ldVxK | ldDTVx | ldSTVx | addI | ldF | ldB | ldMemVx | ldVxMem =>
    simp (disch := decide) [encode, decodeWord, decodeClassF, fields_wordXNN]

theorem decodeWord_eq_some_iff (w : Word) (i : Instr) : decodeWord w = some i ↔ w = encode i :=
  ⟨fun h => (encode_of_decodeWord h).symm, fun h => h ▸ decodeWord_encode i⟩

/-- The word an instruction is encoded as is the one of `encode`. -/
theorem encodedAs_of_encode {i : Instr} {n : Nat} (h : (encode i).toNat = n) : Machine.EncodedAs i n := by
  intro w
  rw [decodeWord_eq_some_iff, ← h, BitVec.toNat_inj]

end Sys2Proof

/-! PROOFS. Control flow (spec/41_control_flow.md): what the operations on pc and the call stack do, and jumps, calls,
returns and skips from them. -/

namespace Sys2Proof.Machine

/-! ## Targets -/

@[simp] theorem zextAddr_toNat (nnn : Addr12) : (zextAddr nnn).toNat = nnn.toNat := by
  have := nnn.isLt
  simp only [zextAddr, BitVec.toNat_ofNat]; omega

@[simp] theorem zextByte_toNat (b : Byte) : (zextByte b).toNat = b.toNat := by
  have := b.isLt
  simp only [zextByte, BitVec.toNat_ofNat]; omega

/-- NNN + V0 is at most 0x10FE, so the 16-bit sum is exact (R117). -/
theorem State.offsetTarget_toNat (s : State) (nnn : Addr12) :
    (s.offsetTarget nnn).toNat = nnn.toNat + (s.reg 0).toNat := by
  have := nnn.isLt; have := (s.reg 0).isLt
  simp only [State.offsetTarget, BitVec.toNat_add, zextAddr_toNat, zextByte_toNat]; omega

theorem State.jump_eq (s : State) (target : Word) : s.jump target = { s with pc := (s.jump target).pc } := rfl

/-! ## Skips -/

theorem State.skipIf_eq (s : State) (c : Bool) : s.skipIf c = { s with pc := (s.skipIf c).pc } := rfl

theorem State.skipIf_pc_of_pos (s : State) {p : Prop} [Decidable p] (h : p) :
    (s.skipIf (decide p)).pc = s.pc + 2 := by simp [h]

theorem State.skipIf_pc_of_neg (s : State) {p : Prop} [Decidable p] (h : ¬ p) :
    (s.skipIf (decide p)).pc = s.pc := by simp [h]

/-! ## The call stack -/

/-- A stack entry reads as it was written, and the others as before. -/
theorem stack_get_set (stack : Vector Word 16) {k : Nat} (h : k < 16) (w : Word) (j : Fin 16) :
    (stack.set k w h).get j = if k = j.val then w else stack.get j := by
  simp [Vector.get_eq_getElem, Vector.getElem_set]

theorem State.pushPc_sp_val (s : State) (h : s.sp.val < 16) : (s.pushPc h).sp.val = s.sp.val + 1 := rfl

theorem State.pushPc_stack_get (s : State) (h : s.sp.val < 16) (j : Fin 16) :
    (s.pushPc h).stack.get j = if s.sp.val = j.val then s.pc else s.stack.get j :=
  stack_get_set s.stack h s.pc j

theorem State.popPc_of_empty {s : State} (h : s.sp.val = 0) : s.popPc = s := dif_pos h

/-- A pop with `k + 1` entries on the stack takes entry `k`. -/
theorem State.popPc_of_sp_eq_succ {s : State} {k : Fin 16} (h : s.sp.val = k.val + 1) :
    s.popPc = { s with pc := s.stack.get k, stack := s.stack.set k.val 0 k.isLt, sp := k.castSucc } := by
  have hk : s.sp.val - 1 = k.val := by omega
  rw [State.popPc, dif_neg (by omega)]
  simp only [hk]
  rfl

theorem State.popPc_eq (s : State) :
    s.popPc = { s with pc := s.popPc.pc, sp := s.popPc.sp, stack := s.popPc.stack } := by
  unfold State.popPc
  split <;> rfl

/-! ## Calls -/

theorem exec_call_of_free (nnn : Addr12) {s : State} (h : s.sp.val < 16) :
    exec (.call nnn) s = .next ((s.pushPc h).jump (zextAddr nnn)) := dif_pos h

theorem exec_call_of_full (nnn : Addr12) {s : State} (h : s.sp.val = 16) :
    exec (.call nnn) s =
      .fault (Fault.ofError .stackOverflow (s.haltedBy .stackOverflow (encode (.call nnn)) none)) :=
  dif_neg (by omega)

/-- A fault that leaves the state halted by an error is the raise of that error: the recorded address is the
instruction's own (R97, R201). -/
theorem execRaises_of_haltedBy {i : Instr} {s : State} {e : CycleError} {word : Word} {detail : Option Nat}
    (h : exec i s = .fault (Fault.ofError e (s.haltedBy e word detail))) : ExecRaises i s e detail :=
  ⟨_, BitVec.sub_add_cancel s.pc 2, rfl, h⟩

end Sys2Proof.Machine

namespace Sys2Proof

open Machine

/-- Settles O3: a call is a push and a jump where an entry is free, and the raise of its one error where none is. -/
theorem callPushesPcOrOverflows : Obligations.CallPushesPcOrOverflows := by
  unfold Obligations.CallPushesPcOrOverflows
  intro nnn s
  refine ⟨encodedAs_of_encode (wordNNN_toNat (op := 0x2) (by decide) nnn), fun k hk => ?_,
    fun hfull => execRaises_of_haltedBy (exec_call_of_full nnn hfull)⟩
  have hfree : s.sp.val < 16 := hk ▸ k.isLt
  have hget (j : Fin 16) : (s.pushPc hfree).stack.get j = if k = j then s.pc else s.stack.get j := by
    simp only [State.pushPc_stack_get, hk, Fin.ext_iff]
  refine ⟨_, exec_call_of_free nnn hfree, rfl, zextAddr_toNat nnn, ?_, ?_, fun j hj => ?_⟩
  · exact (s.pushPc_sp_val hfree).trans (congrArg (· + 1) hk)
  · exact (hget k).trans (if_pos rfl)
  · exact (hget j).trans (if_neg hj.symm)

/-- Settles O1: a return is a pop, by whether the stack is empty. -/
theorem returnPopsPcOrDoesNothing : Obligations.ReturnPopsPcOrDoesNothing := by
  unfold Obligations.ReturnPopsPcOrDoesNothing
  refine ⟨encodedAs_of_encode rfl, fun s => ⟨s.popPc, rfl, s.popPc_eq, State.popPc_of_empty, fun k hk => ?_⟩⟩
  rw [State.popPc_of_sp_eq_succ hk]
  refine ⟨rfl, rfl, ?_, fun j hj => ?_⟩
  · exact (stack_get_set s.stack k.isLt 0 k).trans (if_pos rfl)
  · exact (stack_get_set s.stack k.isLt 0 j).trans (if_neg fun h => hj (Fin.ext h.symm))

/-- Settles O2: both are jumps, to the zero-extended NNN and to the exact sum with V0. -/
theorem jumpsSetPcToAbsoluteTarget : Obligations.JumpsSetPcToAbsoluteTarget := by
  unfold Obligations.JumpsSetPcToAbsoluteTarget
  intro nnn s
  exact ⟨encodedAs_of_encode (wordNNN_toNat (op := 0x1) (by decide) nnn),
    encodedAs_of_encode (wordNNN_toNat (op := 0xB) (by decide) nnn),
    ⟨_, rfl, State.jump_eq s _, zextAddr_toNat nnn⟩, ⟨_, rfl, State.jump_eq s _, s.offsetTarget_toNat nnn⟩⟩

/-- Settles O5: both are skips, on `V[x] = NN` and on its negation. -/
theorem skipsComparingImmediate : Obligations.SkipsComparingImmediate := by
  unfold Obligations.SkipsComparingImmediate
  intro x nn s
  exact ⟨encodedAs_of_encode (wordXNN_toNat (op := 0x3) (by decide) x nn),
    encodedAs_of_encode (wordXNN_toNat (op := 0x4) (by decide) x nn),
    ⟨_, rfl, s.skipIf_eq _, s.skipIf_pc_of_pos, s.skipIf_pc_of_neg⟩,
    ⟨_, rfl, s.skipIf_eq _, s.skipIf_pc_of_pos, fun h => s.skipIf_pc_of_neg (not_not_intro h)⟩⟩

/-- Settles O6: both are skips, on `V[x] = V[y]` and on its negation. -/
theorem skipsComparingRegisters : Obligations.SkipsComparingRegisters := by
  unfold Obligations.SkipsComparingRegisters
  intro x y s
  exact ⟨encodedAs_of_encode (wordXYN_toNat (op := 0x5) (n := 0) (by decide) (by decide) x y),
    encodedAs_of_encode (wordXYN_toNat (op := 0x9) (n := 0) (by decide) (by decide) x y),
    ⟨_, rfl, s.skipIf_eq _, s.skipIf_pc_of_pos, s.skipIf_pc_of_neg⟩,
    ⟨_, rfl, s.skipIf_eq _, s.skipIf_pc_of_pos, fun h => s.skipIf_pc_of_neg (not_not_intro h)⟩⟩

end Sys2Proof

/-! PROOFS. Registers and the ALU (spec/42_alu.md): results and flags of R142 as operations on bytes, what a register
write and a result with its flag leave in the registers, and the instructions from them. -/

namespace Sys2Proof

/-- The numbers of the words of class 8: the low nibble selects the operation (R73). -/
theorem encodedAs_class8 {i : Instr} {x y : Reg} {n : Nat} (hn : n < 16) (h : encode i = wordXYN 0x8 x y n) :
    Machine.EncodedAs i (0x8000 + n + x.val * 0x100 + y.val * 0x10) := by
  refine encodedAs_of_encode ?_
  rw [h, wordXYN_toNat (by decide) hn]
  omega

end Sys2Proof

namespace Sys2Proof.Machine

/-! ## Results -/

theorem sum8_toNat (a b : Byte) : (sum8 a b).toNat = (a.toNat + b.toNat) % 256 := BitVec.toNat_ofNat ..

theorem diff8_eq_sub (a b : Byte) : diff8 a b = a - b := by
  apply BitVec.eq_of_toNat_eq
  simp only [diff8, BitVec.toNat_ofNat, BitVec.toNat_sub]
  omega

theorem shiftRight1_eq (b : Byte) : shiftRight1 b = b >>> 1 := by
  have := b.isLt
  apply BitVec.eq_of_toNat_eq
  simp only [shiftRight1, BitVec.toNat_ofNat, BitVec.toNat_ushiftRight, Nat.shiftRight_eq_div_pow]
  omega

theorem shiftLeft1_eq (b : Byte) : shiftLeft1 b = b <<< 1 := by
  apply BitVec.eq_of_toNat_eq
  simp only [shiftLeft1, BitVec.toNat_ofNat, BitVec.toNat_shiftLeft, Nat.shiftLeft_eq, Nat.pow_one]

/-! ## Flags -/

theorem flagByte_of_pos {p : Prop} [Decidable p] (h : p) : flagByte (decide p) = 1 := by simp [flagByte, h]

theorem flagByte_of_neg {p : Prop} [Decidable p] (h : ¬ p) : flagByte (decide p) = 0 := by simp [flagByte, h]

/-- Masking with 1 leaves the parity. -/
theorem and_one_eq_flagByte (b : Byte) : b &&& 1 = flagByte (decide (b.toNat % 2 = 1)) := by
  apply BitVec.eq_of_toNat_eq
  rcases Nat.mod_two_eq_zero_or_one b.toNat with h | h <;> simp [flagByte, h]

theorem flagByte_lowBit (b : Byte) : flagByte (lowBit b) = b &&& 1 := (and_one_eq_flagByte b).symm

/-- Bit 7 of a byte, the only bit left after a right shift by 7, is whether the byte is at least 128. -/
theorem flagByte_highBit (b : Byte) : flagByte (highBit b) = (b >>> 7) &&& 1 := by
  have hb := b.isLt
  have hbit : 128 ≤ b.toNat ↔ (b >>> 7).toNat % 2 = 1 := by
    rw [BitVec.toNat_ushiftRight, Nat.shiftRight_eq_div_pow]
    omega
  rw [and_one_eq_flagByte, highBit, decide_eq_decide.mpr hbit]

/-! ## Registers after a write -/

theorem State.setReg_reg_dest (s : State) (x : Reg) (b : Byte) : (s.setReg x b).reg x = b := by simp

theorem State.setResult_reg_dest (s : State) {x : Reg} (hx : x ≠ VF) (b : Byte) (f : Bool) :
    (s.setResult x b f).reg x = b := by simp [hx]

theorem State.setResult_reg_VF (s : State) (x : Reg) (b : Byte) (f : Bool) :
    (s.setResult x b f).reg VF = flagByte f := by simp

/-- A flag that is a test leaves 1 in VF where the test holds, whatever the destination. -/
theorem State.setResult_VF_of_pos (s : State) (x : Reg) (b : Byte) {p : Prop} [Decidable p] (h : p) :
    (s.setResult x b (decide p)).reg VF = 1 := (s.setResult_reg_VF x b _).trans (flagByte_of_pos h)

theorem State.setResult_VF_of_neg (s : State) (x : Reg) (b : Byte) {p : Prop} [Decidable p] (h : ¬ p) :
    (s.setResult x b (decide p)).reg VF = 0 := (s.setResult_reg_VF x b _).trans (flagByte_of_neg h)

/-- A difference and its no-borrow flag, in the registers (R137, R139). -/
theorem State.setResult_diff8 (s : State) (x : Reg) (a b : Byte) :
    (x ≠ VF → (s.setResult x (diff8 a b) (noBorrow a b)).reg x = a - b) ∧
    (b ≤ a → (s.setResult x (diff8 a b) (noBorrow a b)).reg VF = 1) ∧
    (a < b → (s.setResult x (diff8 a b) (noBorrow a b)).reg VF = 0) :=
  ⟨fun hx => (s.setResult_reg_dest hx _ _).trans (diff8_eq_sub a b), s.setResult_VF_of_pos x _,
    fun h => s.setResult_VF_of_neg x _ (Nat.not_le.mpr h)⟩

end Sys2Proof.Machine

namespace Sys2Proof

open Machine

/-- Settles O9: the result is the 8-bit sum, and the flag, the test of the exact sum against 255, is written last. -/
theorem addSetsCarryLast : Obligations.AddSetsCarryLast := by
  unfold Obligations.AddSetsCarryLast
  intro x y s
  refine ⟨encodedAs_class8 (n := 4) (by decide) rfl, _, rfl, s.setResult_eq x _ _, s.setResult_keeps x _ _,
    fun hx => ?_, s.setResult_VF_of_pos x _, fun h => s.setResult_VF_of_neg x _ (Nat.not_lt.mpr h)⟩
  rw [s.setResult_reg_dest hx]
  exact sum8_toNat _ _

/-- Settles O10: both results are differences of bytes, and the flag, the test of the old operands, is written last. -/
theorem subtractionsSetNoBorrowLast : Obligations.SubtractionsSetNoBorrowLast := by
  unfold Obligations.SubtractionsSetNoBorrowLast
  intro x y s
  exact ⟨encodedAs_class8 (n := 5) (by decide) rfl, encodedAs_class8 (n := 7) (by decide) rfl,
    ⟨_, rfl, s.setResult_eq x _ _, s.setResult_keeps x _ _, s.setResult_diff8 x _ _⟩,
    ⟨_, rfl, s.setResult_eq x _ _, s.setResult_keeps x _ _, s.setResult_diff8 x _ _⟩⟩

/-- Settles O11: results and flags are the shifts and the masked end bits of V[y], the flag written last. -/
theorem shiftsTakeVyAndSetShiftedOutBitLast : Obligations.ShiftsTakeVyAndSetShiftedOutBitLast := by
  unfold Obligations.ShiftsTakeVyAndSetShiftedOutBitLast
  intro x y s
  exact ⟨encodedAs_class8 (n := 6) (by decide) rfl, encodedAs_class8 (n := 14) (by decide) rfl,
    ⟨_, rfl, s.setResult_eq x _ _, s.setResult_keeps x _ _,
      fun hx => (s.setResult_reg_dest hx _ _).trans (shiftRight1_eq _),
      (s.setResult_reg_VF x _ _).trans (flagByte_lowBit _)⟩,
    ⟨_, rfl, s.setResult_eq x _ _, s.setResult_keeps x _ _,
      fun hx => (s.setResult_reg_dest hx _ _).trans (shiftLeft1_eq _),
      (s.setResult_reg_VF x _ _).trans (flagByte_highBit _)⟩⟩

/-- Settles O7: all three are one register write, of NN, of the 8-bit sum and of V[y]. -/
theorem loadsAndAddImmediateWriteOneRegister : Obligations.LoadsAndAddImmediateWriteOneRegister := by
  unfold Obligations.LoadsAndAddImmediateWriteOneRegister
  intro x y nn s
  exact ⟨encodedAs_of_encode (wordXNN_toNat (op := 0x6) (by decide) x nn),
    encodedAs_of_encode (wordXNN_toNat (op := 0x7) (by decide) x nn),
    encodedAs_class8 (n := 0) (by decide) rfl,
    ⟨_, rfl, s.setReg_eq x _, s.setReg_keeps x _, s.setReg_reg_dest x _⟩,
    ⟨_, rfl, s.setReg_eq x _, s.setReg_keeps x _,
      (congrArg BitVec.toNat (s.setReg_reg_dest x _)).trans (sum8_toNat _ _)⟩,
    ⟨_, rfl, s.setReg_eq x _, s.setReg_keeps x _, s.setReg_reg_dest x _⟩⟩

/-- Settles O8: all three are one register write, of a byte whose bits are the OR, AND or XOR of the operands' bits. -/
theorem logicWorksBitByBitWithoutFlag : Obligations.LogicWorksBitByBitWithoutFlag := by
  unfold Obligations.LogicWorksBitByBitWithoutFlag
  intro x y s
  have hbit (b : Byte) (i : Nat) : ((s.setReg x b).reg x).getLsbD i = b.getLsbD i := by
    rw [s.setReg_reg_dest]
  exact ⟨encodedAs_class8 (n := 1) (by decide) rfl, encodedAs_class8 (n := 2) (by decide) rfl,
    encodedAs_class8 (n := 3) (by decide) rfl,
    ⟨_, rfl, s.setReg_eq x _, s.setReg_keeps x _, fun i => (hbit _ i).trans BitVec.getLsbD_or⟩,
    ⟨_, rfl, s.setReg_eq x _, s.setReg_keeps x _, fun i => (hbit _ i).trans BitVec.getLsbD_and⟩,
    ⟨_, rfl, s.setReg_eq x _, s.setReg_keeps x _, fun i => (hbit _ i).trans BitVec.getLsbD_xor⟩⟩

end Sys2Proof

/-! PROOFS. The index register and memory (spec/43_index_memory.md): what FX1E leaves in I and VF, a range check as what
the instruction behind it does, stores and block loads byte by byte, and the instructions from them. -/

namespace Sys2Proof

/-- The numbers of the words whose low byte selects the operation (R73). -/
theorem encodedAs_wordXNN {i : Instr} {op : Nat} {x : Reg} {nn : Byte} (hop : op < 16)
    (h : encode i = wordXNN op x nn) : Machine.EncodedAs i (op * 0x1000 + nn.toNat + x.val * 0x100) := by
  refine encodedAs_of_encode ?_
  rw [h, wordXNN_toNat hop]
  omega

end Sys2Proof

namespace Sys2Proof.Machine

/-! ## The index register -/

/-- The last glyph ends at 0x09F, so the 16-bit sum is exact (R152). -/
theorem glyphAddress_toNat (b : Byte) : (glyphAddress b).toNat = 0x050 + 5 * (b.toNat % 16) := by
  simp only [glyphAddress, fontBase, BitVec.toNat_ofNat]
  omega

/-- FX1E past 0xFFF (R151). -/
theorem State.addToIndex_of_overflow {s : State} {x : Reg} (h : 0xFFF < s.indexSum x) :
    s.addToIndex x = { s with idx := BitVec.ofNat 16 (s.indexSum x - 0x1000) }.setReg VF 1 :=
  if_pos (decide_eq_true h)

/-- FX1E without overflow (R151): VF is as the parameter says. -/
theorem State.addToIndex_of_noOverflow {s : State} {x : Reg} (h : s.indexSum x ≤ 0xFFF) :
    s.addToIndex x =
      if s.config.fx1eClearsVF then { s with idx := BitVec.ofNat 16 (s.indexSum x) }.setReg VF 0
      else { s with idx := BitVec.ofNat 16 (s.indexSum x) } :=
  if_neg (by simpa [State.indexOverflow] using h)

theorem State.addToIndex_eq (s : State) (x : Reg) :
    s.addToIndex x = { s with v := (s.addToIndex x).v, idx := (s.addToIndex x).idx } := by
  unfold State.addToIndex
  split
  · rfl
  · split <;> rfl

/-- A register write changes at most its destination, also when I is written with it. -/
theorem State.setReg_keeps_of_idx (s : State) (i : Word) (x : Reg) (b : Byte) :
    KeepsRegsBut [x] s ({ s with idx := i }.setReg x b) := State.setReg_keeps { s with idx := i } x b

/-- FX1E changes no register but VF. -/
theorem State.addToIndex_keeps (s : State) (x : Reg) : KeepsRegsBut [VF] s (s.addToIndex x) := by
  unfold State.addToIndex
  split
  · exact s.setReg_keeps_of_idx _ VF 1
  · split
    · exact s.setReg_keeps_of_idx _ VF 0
    · exact fun _ _ => rfl

/-- The exact sum is less than 0x1000 past 16 bits, so I is exact in every state, also one that no run reaches. -/
theorem State.addToIndex_idx_toNat (s : State) (x : Reg) :
    (s.addToIndex x).idx.toNat = if 0xFFF < s.indexSum x then s.indexSum x - 0x1000 else s.indexSum x := by
  have hsum : s.indexSum x < 0x10000 + 0x100 := Nat.add_lt_add s.idx.isLt (s.reg x).isLt
  split
  case isTrue h =>
    simp only [State.addToIndex_of_overflow h, State.setReg_idx, BitVec.toNat_ofNat]
    omega
  case isFalse h =>
    have hidx : (s.addToIndex x).idx = BitVec.ofNat 16 (s.indexSum x) := by
      rw [State.addToIndex_of_noOverflow (Nat.le_of_not_lt h)]
      split <;> rfl
    rw [hidx, BitVec.toNat_ofNat]
    omega

/-! ## Guarded instructions -/

/-- Where every address of its range may be written, an instruction behind a write check completes (R54). -/
theorem exec_next_of_writable {i : Instr} {s go : State} {count : Nat}
    (hexec : exec i s = guarded i (checkWrite s.dataBase count) s go)
    (h : ∀ k, k < count → Writable (s.dataBase + k)) : exec i s = .next go :=
  hexec.trans ((guarded_eq_next_iff ..).2 ⟨(checkWrite_eq_none_iff ..).2 h, rfl⟩)

/-- Where every address of its range exists, an instruction behind a read check completes (R54). -/
theorem exec_next_of_readable {i : Instr} {s go : State} {count : Nat}
    (hexec : exec i s = guarded i (checkRead s.dataBase count) s go)
    (h : ∀ k, k < count → Readable (s.dataBase + k)) : exec i s = .next go :=
  hexec.trans ((guarded_eq_next_iff ..).2 ⟨(checkRead_eq_none_iff ..).2 h, rfl⟩)

/-- An instruction behind a check raises what the check found. -/
theorem execRaises_of_check_eq_some {i : Instr} {s go : State} {check : Option (CycleError × Nat)} {e : CycleError}
    {a : Nat} (hexec : exec i s = guarded i check s go) (h : check = some (e, a)) : ExecRaises i s e (some a) :=
  execRaises_of_haltedBy (hexec.trans ((guarded_eq_fault_iff ..).2 ⟨e, a, h, rfl⟩))

/-- An instruction behind a write check raises the error of the lowest failing address, DataOutOfBounds before
FontWrite (R53, R54). -/
theorem execRaises_of_not_writable {i : Instr} {s go : State} {count a : Nat}
    (hexec : exec i s = guarded i (checkWrite s.dataBase count) s go) (h : LowestFailing Writable s.dataBase count a) :
    (0xFFF < a → ExecRaises i s .dataOutOfBounds (some a)) ∧ (a ≤ 0xFFF → ExecRaises i s .fontWrite (some a)) := by
  have hraises : ExecRaises i s (writeError a) (some a) :=
    execRaises_of_check_eq_some hexec ((checkWrite_eq_some_iff ..).2 ⟨rfl, h⟩)
  constructor
  · intro ha
    rwa [writeError, if_pos ha] at hraises
  · intro ha
    rwa [writeError, if_neg (Nat.not_lt.2 ha)] at hraises

/-- An instruction behind a read check raises DataOutOfBounds for the lowest failing address (R52, R54). -/
theorem execRaises_of_not_readable {i : Instr} {s go : State} {count a : Nat}
    (hexec : exec i s = guarded i (checkRead s.dataBase count) s go) (h : LowestFailing Readable s.dataBase count a) :
    ExecRaises i s .dataOutOfBounds (some a) :=
  execRaises_of_check_eq_some hexec ((checkRead_eq_some_iff ..).2 ⟨rfl, h⟩)

/-! ## Stores -/

/-- A range that may be written ends in memory. -/
theorem range_le_memSize_of_writable {base count : Nat} (hpos : 0 < count)
    (h : ∀ k, k < count → Writable (base + k)) : base + count ≤ memSize := by
  obtain ⟨hlast, -⟩ := h (count - 1) (by omega)
  rw [memSize]
  omega

/-- A stored byte reads back at its address. -/
theorem State.byteAt_store_of_getElem? {s : State} (hs : s.memOk) {base k : Nat} {bytes : List Byte} {b : Byte}
    (hb : base + bytes.length ≤ memSize) (hk : bytes[k]? = some b) : (s.store base bytes).byteAt (base + k) = b := by
  rw [State.byteAt_store hs base bytes hb, if_pos (Nat.le_add_right base k), Nat.add_sub_cancel_left, hk]
  rfl

/-- What an instruction that stores bytes from I on does where all of them may be written: memory alone changes, each
byte reads back at its address, and every other byte is kept (R53, R156). -/
theorem exec_store_of_writable {i : Instr} {s : State} {bytes : List Byte} {count : Nat} (hs : s.memOk)
    (hexec : exec i s = guarded i (checkWrite s.dataBase count) s (s.store s.dataBase bytes))
    (hlen : bytes.length = count) (hpos : 0 < count) (h : ∀ k, k < count → Writable (s.dataBase + k)) :
    ∃ t, exec i s = .next t ∧ t = { s with mem := t.mem } ∧ KeepsBytesOutside s.dataBase count s t ∧
      ∀ (k : Nat) (b : Byte), bytes[k]? = some b → t.byteAt (s.dataBase + k) = b := by
  have hfits : s.dataBase + bytes.length ≤ memSize := hlen ▸ range_le_memSize_of_writable hpos h
  exact ⟨_, exec_next_of_writable hexec h, rfl, hlen ▸ State.store_keepsOutside hs s.dataBase bytes hfits,
    fun _ _ hk => State.byteAt_store_of_getElem? hs hfits hk⟩

/-- A number below 256 is kept by the byte that holds it. -/
theorem toNat_of_eq_ofNat {b : Byte} {n : Nat} (h : b = BitVec.ofNat 8 n) (hn : n < 256) : b.toNat = n := by
  rw [h, BitVec.toNat_ofNat]
  exact Nat.mod_eq_of_lt hn

/-! ## Block loads -/

/-- The registers after FX65: V0 to Vx hold the bytes from I on, the others are as before (R155). -/
theorem State.setRegsFrom_bytesAtI_get (s : State) (x k : Reg) :
    (setRegsFrom s.v 0 (s.bytesAtI (x.val + 1))).get k =
      if k.val ≤ x.val then s.byteAt (s.dataBase + k.val) else s.reg k := by
  rw [setRegsFrom_get, if_pos (Nat.zero_le _), Nat.sub_zero, State.bytesAtI_getElem?]
  by_cases h : k.val ≤ x.val
  · rw [if_pos (Nat.lt_succ_of_le h), if_pos h]
    rfl
  · rw [if_neg (by omega), if_neg h]
    rfl

end Sys2Proof.Machine

namespace Sys2Proof

open Machine

/-- Settles O14: the exact sum decides both I and VF. -/
theorem addToIndexWrapsAndFlags : Obligations.AddToIndexWrapsAndFlags := by
  unfold Obligations.AddToIndexWrapsAndFlags
  intro x s
  refine ⟨encodedAs_wordXNN (op := 0xF) (nn := 0x1E) (by decide) rfl, _, rfl, s.addToIndex_eq x,
    s.addToIndex_keeps x, fun hover => ?_, fun hfits => ?_⟩
  · have hsum : 0xFFF < s.indexSum x := hover
    refine ⟨?_, ?_⟩
    · rw [s.addToIndex_idx_toNat, if_pos hsum]
      exact Nat.sub_add_cancel hsum
    · rw [State.addToIndex_of_overflow hsum, State.setReg_reg_dest]
  · have hsum : s.indexSum x ≤ 0xFFF := hfits
    refine ⟨?_, fun hclears => ?_, fun hleaves => ?_⟩
    · rw [s.addToIndex_idx_toNat, if_neg (Nat.not_lt.2 hsum)]
      rfl
    · rw [State.addToIndex_of_noOverflow hsum, if_pos hclears, State.setReg_reg_dest]
    · rw [State.addToIndex_of_noOverflow hsum, if_neg (Bool.eq_false_iff.1 hleaves)]
      rfl

/-- Settles O16: a store of three bytes behind a write check, the bytes being the digits of V[x]. -/
theorem bcdStoresDecimalDigits : Obligations.BcdStoresDecimalDigits := by
  unfold Obligations.BcdStoresDecimalDigits
  intro x s
  refine ⟨encodedAs_wordXNN (op := 0xF) (nn := 0x33) (by decide) rfl, fun hs hw => ?_,
    fun a => execRaises_of_not_writable rfl⟩
  obtain ⟨t, hnext, hframe, hkeeps, hbytes⟩ := exec_store_of_writable (i := .ldB x) hs rfl rfl (by decide) hw
  have hlt := (s.reg x).isLt
  refine ⟨t, hnext, hframe, hkeeps, (s.reg x).toNat / 100, (s.reg x).toNat / 10 % 10, (s.reg x).toNat % 10,
    by omega, by omega, by omega, ?_, ?_, ?_⟩
  · exact toNat_of_eq_ofNat (hbytes 0 _ rfl) (by omega)
  · exact toNat_of_eq_ofNat (hbytes 1 _ rfl) (by omega)
  · exact toNat_of_eq_ofNat (hbytes 2 _ rfl) (by omega)

/-- Settles O17: a store of x + 1 bytes behind a write check, the bytes being V0 to Vx. -/
theorem blockStoreWritesRegisters : Obligations.BlockStoreWritesRegisters := by
  unfold Obligations.BlockStoreWritesRegisters
  intro x s
  refine ⟨encodedAs_wordXNN (op := 0xF) (nn := 0x55) (by decide) rfl, fun hs hw => ?_,
    fun a => execRaises_of_not_writable rfl⟩
  obtain ⟨t, hnext, hframe, hkeeps, hbytes⟩ :=
    exec_store_of_writable (i := .ldMemVx x) hs rfl (s.regsTo_length x) x.val.succ_pos hw
  exact ⟨t, hnext, hframe, hkeeps, fun k hk => hbytes k.val _ (s.regsTo_getElem? x k hk)⟩

/-- Settles O18: a load of x + 1 bytes into V0 to Vx behind a read check. -/
theorem blockLoadReadsRegisters : Obligations.BlockLoadReadsRegisters := by
  unfold Obligations.BlockLoadReadsRegisters
  intro x s
  refine ⟨encodedAs_wordXNN (op := 0xF) (nn := 0x65) (by decide) rfl,
    fun hr => ⟨_, exec_next_of_readable (i := .ldVxMem x) rfl hr, rfl, fun k hk => ?_, fun k hk => ?_⟩,
    fun a => execRaises_of_not_readable rfl⟩
  · exact (s.setRegsFrom_bytesAtI_get x k).trans (if_pos hk)
  · exact (s.setRegsFrom_bytesAtI_get x k).trans (if_neg (Nat.not_le.2 hk))

/-- Settles O13: I receives the zero-extended NNN. -/
theorem loadIndexSetsIndex : Obligations.LoadIndexSetsIndex := by
  unfold Obligations.LoadIndexSetsIndex
  intro nnn s
  exact ⟨encodedAs_of_encode (wordNNN_toNat (op := 0xA) (by decide) nnn), _, rfl, rfl, zextAddr_toNat nnn⟩

/-- Settles O15: I receives the address of the glyph. -/
theorem fontIndexIsGlyphAddress : Obligations.FontIndexIsGlyphAddress := by
  unfold Obligations.FontIndexIsGlyphAddress
  intro x s
  exact ⟨encodedAs_wordXNN (op := 0xF) (nn := 0x29) (by decide) rfl, _, rfl, rfl, glyphAddress_toNat _⟩

end Sys2Proof

/-! PROOFS. The display (spec/44_display.md): the flag byte of a draw, when a draw reports a hit, and the two
instructions from what a draw does to each pixel. -/

namespace Sys2Proof.Machine

theorem flagByte_eq_zero_or_one (f : Bool) : flagByte f = 0 ∨ flagByte f = 1 := by
  cases f
  · exact Or.inl rfl
  · exact Or.inr rfl

theorem flagByte_eq_one_iff (f : Bool) : flagByte f = 1 ↔ f = true := by cases f <;> decide

/-- The hit flag is 0 at the start of a draw, so in the end it is set exactly when a covered pixel was lit (R171). -/
theorem State.drawing_hit_iff (s : State) (x y : Reg) (n : Nat) :
    (s.drawing x y n).2 = true ↔ ∃ (px : Fin 64) (py : Fin 32), s.disp.pixel px py = true ∧
      s.spriteCovers ((s.reg x).toNat % 64) ((s.reg y).toNat % 32) n px py := by
  obtain ⟨-, hhit⟩ := flips_drawing s x y n
  simpa [and_comm] using hhit

/-- A register write changes at most its destination, also when the display is written with it. -/
theorem State.setReg_keeps_of_disp (s : State) (d : Display) (x : Reg) (b : Byte) :
    KeepsRegsBut [x] s ({ s with disp := d }.setReg x b) := State.setReg_keeps { s with disp := d } x b

end Sys2Proof.Machine

namespace Sys2Proof

open Machine

/-- Settles O21: a draw behind a read check, which flips the covered pixels, and then the hit as the flag byte in VF. -/
theorem drawFlipsCoveredPixelsAndFlagsCollision : Obligations.DrawFlipsCoveredPixelsAndFlagsCollision := by
  unfold Obligations.DrawFlipsCoveredPixelsAndFlagsCollision
  intro x y n s
  refine ⟨encodedAs_of_encode (wordXYN_toNat (op := 0xD) (by decide) n.isLt x y), fun hr => ?_,
    fun a => execRaises_of_not_readable rfl⟩
  obtain ⟨hflips, -⟩ := flips_drawing s x y n.val
  refine ⟨_, exec_next_of_readable (i := .drw x y n) rfl hr, rfl, s.setReg_keeps_of_disp _ VF _, hflips, ?_, ?_⟩
  · rw [State.setReg_reg_dest]
    exact flagByte_eq_zero_or_one _
  · rw [State.setReg_reg_dest, flagByte_eq_one_iff]
    exact s.drawing_hit_iff x y n.val

/-- Settles O20: the display becomes the blank one, whatever it was. -/
theorem clearUnlightsEveryPixel : Obligations.ClearUnlightsEveryPixel := by
  unfold Obligations.ClearUnlightsEveryPixel
  exact ⟨encodedAs_of_encode rfl, fun s => ⟨_, rfl, rfl, Display.pixel_blank⟩⟩

end Sys2Proof

/-! PROOFS. Keypad and timers (spec/45_keypad_timers.md): when a byte is the number of a pressed key, what FX0A does by
the snapshot, and the instructions from them. -/

namespace Sys2Proof.Machine

/-! ## Key tests -/

theorem keyPressed_eq_true_iff (keys : List Key) (b : Byte) :
    keyPressed keys b = true ↔ ∃ k ∈ keys, k.val = b.toNat := by
  simp only [keyPressed, List.any_eq_true, decide_eq_true_eq]

theorem keyPressed_eq_false_iff (keys : List Key) (b : Byte) :
    keyPressed keys b = false ↔ ∀ k ∈ keys, k.val ≠ b.toNat := by
  simp only [keyPressed, List.any_eq_false, decide_eq_true_eq, ne_eq]

theorem State.skipIf_pc_of_true (s : State) {c : Bool} (h : c = true) : (s.skipIf c).pc = s.pc + 2 := by
  rw [State.skipIf_pc, if_pos h]

theorem State.skipIf_pc_of_false (s : State) {c : Bool} (h : c = false) : (s.skipIf c).pc = s.pc := by
  rw [State.skipIf_pc, if_neg (Bool.eq_false_iff.1 h)]

/-! ## The key wait -/

/-- FX0A with no key pressed goes back to its own address (R190). -/
theorem exec_ldVxK_of_no_key {s : State} (x : Reg) (h : s.input.keys = []) :
    exec (.ldVxK x) s = .next { s with pc := s.pc - 2 } :=
  congrArg Host.Outcome.next (congrArg (s.takeKey x) h)

/-- FX0A with keys pressed writes the first (R190). -/
theorem exec_ldVxK_of_first_key {s : State} (x : Reg) {k : Key} {rest : List Key} (h : s.input.keys = k :: rest) :
    exec (.ldVxK x) s = .next (s.setReg x (BitVec.ofNat 8 k.val)) :=
  congrArg Host.Outcome.next (congrArg (s.takeKey x) h)

end Sys2Proof.Machine

namespace Sys2Proof

open Machine

/-- Settles O23: both are skips, on the test of V[x] against the snapshot and on its negation. -/
theorem keySkipsTestTheSnapshot : Obligations.KeySkipsTestTheSnapshot := by
  unfold Obligations.KeySkipsTestTheSnapshot
  intro x s
  refine ⟨encodedAs_wordXNN (op := 0xE) (nn := 0x9E) (by decide) rfl,
    encodedAs_wordXNN (op := 0xE) (nn := 0xA1) (by decide) rfl,
    ⟨_, rfl, s.skipIf_eq _, fun hpressed => ?_, fun hnone => ?_⟩,
    ⟨_, rfl, s.skipIf_eq _, fun hnone => ?_, fun hpressed => ?_⟩⟩
  · exact s.skipIf_pc_of_true ((keyPressed_eq_true_iff ..).2 hpressed)
  · exact s.skipIf_pc_of_false ((keyPressed_eq_false_iff ..).2 hnone)
  · exact s.skipIf_pc_of_true (congrArg not ((keyPressed_eq_false_iff ..).2 hnone))
  · exact s.skipIf_pc_of_false (congrArg not ((keyPressed_eq_true_iff ..).2 hpressed))

/-- Settles O24: one register write, of DT, and one write of V[x] to each timer. -/
theorem timerTransfersCopy : Obligations.TimerTransfersCopy := by
  unfold Obligations.TimerTransfersCopy
  intro x s
  exact ⟨encodedAs_wordXNN (op := 0xF) (nn := 0x07) (by decide) rfl,
    encodedAs_wordXNN (op := 0xF) (nn := 0x15) (by decide) rfl,
    encodedAs_wordXNN (op := 0xF) (nn := 0x18) (by decide) rfl,
    ⟨_, rfl, s.setReg_eq x _, s.setReg_keeps x _, s.setReg_reg_dest x _⟩, ⟨_, rfl, rfl, rfl⟩, ⟨_, rfl, rfl, rfl⟩⟩

/-- Settles O25: by the snapshot; a key number fits in the byte written. -/
theorem keyWaitRewindsOrTakesFirstKey : Obligations.KeyWaitRewindsOrTakesFirstKey := by
  unfold Obligations.KeyWaitRewindsOrTakesFirstKey
  intro x s
  refine ⟨encodedAs_wordXNN (op := 0xF) (nn := 0x0A) (by decide) rfl, exec_ldVxK_of_no_key x, fun k rest hkeys => ?_⟩
  have hlt : k.val < 256 := by omega
  exact ⟨_, exec_ldVxK_of_first_key x hkeys, s.setReg_eq x _, s.setReg_keeps x _,
    toNat_of_eq_ofNat (s.setReg_reg_dest x _) hlt⟩

end Sys2Proof

/-! PROOFS. Errors and timers (spec/60_exceptions.md): what one tick leaves in a timer, the errors of an instruction by the
address they record, and the faults of a running core. -/

namespace Sys2Proof.Machine

/-! ## One tick -/

/-- A tick subtracts 1 as numbers do, stopping at 0 (R211). -/
theorem countDown_toNat (t : Byte) : (countDown t).toNat = t.toNat - 1 := by
  unfold countDown
  split
  case isTrue h => subst h; rfl
  case isFalse h => bv_omega

/-! ## The address an error records -/

theorem LowestFailing.not_ok {ok : Nat → Prop} {base count a : Nat} (h : LowestFailing ok base count a) : ¬ ok a := by
  obtain ⟨-, -, hfails, -⟩ := h
  exact hfails

/-- A failing write raises DataOutOfBounds where the address does not exist, FontWrite where it does (R53). -/
theorem writeError_cases {a : Nat} (h : ¬ Writable a) :
    writeError a = .dataOutOfBounds ∧ ¬ Readable a ∨ writeError a = .fontWrite ∧ Readable a ∧ ¬ Writable a := by
  by_cases ha : 0xFFF < a
  · exact Or.inl ⟨if_pos ha, Nat.not_le.2 ha⟩
  · exact Or.inr ⟨if_neg ha, Nat.le_of_not_lt ha, h⟩

/-- An instruction raises StackOverflow without an address, or the error of the lowest address it may not access: one
that does not exist, or one that exists and may not be written (R53, R54, R200). -/
theorem Raises.detail_cases {i : Instr} {s : State} {e : CycleError} {detail : Option Nat} (h : Raises i s e detail) :
    e = .stackOverflow ∧ detail = none ∨
    ∃ a, detail = some a ∧ FailsFirstAt i s.dataBase a ∧
      (e = .dataOutOfBounds ∧ ¬ Readable a ∨ e = .fontWrite ∧ Readable a ∧ ¬ Writable a) := by
  cases i
  case call nnn =>
    obtain ⟨-, he, hd⟩ := h
    exact Or.inl ⟨he, hd⟩
  case drw x y n =>
    obtain ⟨a, hd, he, hfail⟩ := h
    exact Or.inr ⟨a, hd, Or.inl ⟨x, y, n, rfl, hfail⟩, Or.inl ⟨he, hfail.not_ok⟩⟩
  case ldVxMem x =>
    obtain ⟨a, hd, he, hfail⟩ := h
    exact Or.inr ⟨a, hd, Or.inr (Or.inl ⟨x, rfl, hfail⟩), Or.inl ⟨he, hfail.not_ok⟩⟩
  case ldB x =>
    obtain ⟨a, hd, rfl, hfail⟩ := h
    exact Or.inr ⟨a, hd, Or.inr (Or.inr (Or.inl ⟨x, rfl, hfail⟩)), writeError_cases hfail.not_ok⟩
  case ldMemVx x =>
    obtain ⟨a, hd, rfl, hfail⟩ := h
    exact Or.inr ⟨a, hd, Or.inr (Or.inr (Or.inr ⟨x, rfl, hfail⟩)), writeError_cases hfail.not_ok⟩
  all_goals exact nomatch h

/-! ## The faults of a running core -/

/-- The faults of a running core, after the timer step: no fetch fits, the word is no instruction, or its instruction
raises, and then the recorded word, its encoding, is the fetched one (R92, R93, R96, R201). -/
theorem step_fault_cases {s : State} {f : Fault} (hs : s.status = .running) (h : step s = .fault f) :
    (4096 < s.pc.toNat + 2 ∧
      f = Fault.ofError .outOfBounds { s.ticked with status := .halted .outOfBounds ⟨s.pc, none, none⟩ }) ∨
    s.pc.toNat + 2 ≤ 4096 ∧
      ((decodeWord s.wordAtPc = none ∧ f = Fault.ofError .unknownInstruction
          { s.ticked.advancePc with status := .halted .unknownInstruction ⟨s.pc, some s.wordAtPc, none⟩ }) ∨
        ∃ i e detail, decodeWord s.wordAtPc = some i ∧ Raises i s.ticked.advancePc e detail ∧ f = Fault.ofError e
          { s.ticked.advancePc with status := .halted e ⟨s.pc, some s.wordAtPc, detail⟩ }) := by
  rcases step_cases s with ⟨e, info, hhalted, -⟩ | ⟨-, hcycle⟩
  · exact nomatch hs.symm.trans hhalted
  rw [timerStep_eq_ticked] at hcycle
  rcases hcycle with ⟨hnone, hstep⟩ | ⟨w, hfetch, hrun⟩
  · exact Or.inl ⟨(State.fetchWord_eq_none_iff _).1 hnone, (Host.Outcome.fault.inj (hstep.symm.trans h)).symm⟩
  obtain ⟨hfits, hw⟩ := (State.fetchWord_eq_some_iff _ _).1 hfetch
  obtain rfl : w = s.wordAtPc := hw
  refine Or.inr ⟨hfits, ?_⟩
  rcases hrun with ⟨hdecode, hstep⟩ | ⟨i, hdecode, hstep⟩
  · exact Or.inl ⟨hdecode, (Host.Outcome.fault.inj (hstep.symm.trans h)).symm⟩
  · obtain ⟨e, detail, hraises, hf⟩ := exec_fault_cases ((finishCycle_eq_fault_iff _ _).1 (hstep.symm.trans h))
    refine Or.inr ⟨i, e, detail, hdecode, hraises, ?_⟩
    rw [hf, State.haltedBy, encode_of_decodeWord hdecode, State.advancePc_pc, BitVec.add_sub_cancel]
    rfl

end Sys2Proof.Machine

namespace Sys2Proof

open Machine

/-- Settles O39: by the faults of a running core; an error of an instruction has an address exactly when it comes from a
range check. -/
theorem errorRecordsAddressWordAndDetail : Obligations.ErrorRecordsAddressWordAndDetail := by
  unfold Obligations.ErrorRecordsAddressWordAndDetail
  intro s f hs h
  rcases step_fault_cases hs h with ⟨-, rfl⟩ | ⟨-, ⟨-, rfl⟩ | ⟨i, e, detail, hdecode, hraises, rfl⟩⟩
  · exact ⟨⟨s.pc, none, none⟩, by simp⟩
  · exact ⟨⟨s.pc, some s.wordAtPc, none⟩, by simp⟩
  · refine ⟨⟨s.pc, some s.wordAtPc, detail⟩, by simp, rfl, ?_⟩
    rcases hraises.detail_cases with ⟨rfl, rfl⟩ | ⟨a, rfl, hfirst, ⟨rfl, hmissing⟩ | ⟨rfl, hexists, hfont⟩⟩
    · simp
    · simpa using ⟨i, hdecode, hfirst, hmissing⟩
    · simpa using ⟨i, hdecode, hfirst, hexists, hfont⟩

/-- Settles O34: a tick counts each timer down, and the two timers are all that the timer step writes. -/
theorem timerStepTicksBothTimersToZero : Obligations.TimerStepTicksBothTimersToZero := by
  unfold Obligations.TimerStepTicksBothTimersToZero
  exact fun s => ⟨rfl, rfl, countDown_toNat s.dt, countDown_toNat s.st⟩

end Sys2Proof

/-! PROOFS. The load (spec/70_reset_and_hazards.md): its answer by the length of the image, and the state it gives, read
component by component. -/

namespace Sys2Proof.Machine

/-! ## The answer of the load -/

theorem load_eq_emptyProgram (c : Config) {rom : List Byte} (h : rom.length = 0) :
    load c rom = .error .emptyProgram := if_pos h

theorem load_eq_romTooLarge (c : Config) {rom : List Byte} (h : maxProgram < rom.length) :
    load c rom = .error .romTooLarge := by
  rw [load, if_neg (Nat.ne_zero_of_lt h), if_pos h]

theorem load_eq_ok (c : Config) {rom : List Byte} (hpos : 0 < rom.length) (hfits : rom.length ≤ maxProgram) :
    load c rom = .ok ((State.initial c).store programBase rom) := by
  rw [load, if_neg hpos.ne', if_neg (Nat.not_lt.2 hfits)]

/-! ## What the load leaves in memory -/

/-- The font region of a memory that lists nothing reads as FONT (R231). -/
theorem unlisted_of_font (font : Vector Byte 80) (k : Fin 80) : unlisted font (0x050 + k.val) = font.get k := by
  have hfont : inFont (0x050 + k.val) = true := (inFont_iff _).2 (by omega)
  simp [unlisted, hfont, fontBase, Vector.getD, Vector.get_eq_getElem]

/-- A memory that lists nothing reads as 0 outside the font region (R231). -/
theorem unlisted_of_not_font (font : Vector Byte 80) {a : Nat} (h : ¬ (0x050 ≤ a ∧ a ≤ 0x09F)) :
    unlisted font a = 0 := by
  rw [unlisted, (inFont_eq_false_iff a).2 h]
  rfl

theorem State.byteAt_initial (c : Config) (a : Nat) : (State.initial c).byteAt a = unlisted c.font a := rfl

/-- An image of a length that loads ends in memory. -/
theorem programBase_add_le_memSize {len : Nat} (h : len ≤ maxProgram) : programBase + len ≤ memSize := by
  simp only [programBase, maxProgram, memSize] at h ⊢
  omega

/-- A byte of the image, where the load puts it. -/
theorem State.byteAt_image (c : Config) {rom : List Byte} (hfits : rom.length ≤ maxProgram) {k : Nat}
    (hk : k < rom.length) : ((State.initial c).store programBase rom).byteAt (0x200 + k) = rom[k] :=
  State.byteAt_store_of_getElem? (State.initial_memOk c) (programBase_add_le_memSize hfits)
    (List.getElem?_eq_getElem hk)

/-- A byte outside the image is the one that stood there before the image was copied. -/
theorem State.byteAt_outside_image (c : Config) {rom : List Byte} (hfits : rom.length ≤ maxProgram) {a : Nat}
    (ha : ¬ (0x200 ≤ a ∧ a < 0x200 + rom.length)) :
    ((State.initial c).store programBase rom).byteAt a = unlisted c.font a :=
  State.store_keepsOutside (State.initial_memOk c) programBase rom (programBase_add_le_memSize hfits) a ha

/-! ## What the load leaves in registers and stack -/

theorem State.reg_initial (c : Config) (x : Reg) : (State.initial c).reg x = 0 :=
  Vector.getElem_replicate x.isLt

theorem State.stack_initial_get (c : Config) (k : Fin 16) : (State.initial c).stack.get k = 0 :=
  Vector.getElem_replicate k.isLt

end Sys2Proof.Machine

namespace Sys2Proof

open Machine

/-- Settles O47: the image is stored over the initial state, whose bytes are FONT and zeros; the font region lies below
the image, so the store keeps it. -/
theorem loadFollowsTheRule : Obligations.LoadFollowsTheRule := by
  unfold Obligations.LoadFollowsTheRule
  intro c rom
  refine ⟨load_eq_emptyProgram c, load_eq_romTooLarge c, fun hpos hfits => ⟨_, load_eq_ok c hpos hfits, ?font,
    fun k hk => State.byteAt_image c hfits hk, ?rest, State.reg_initial c, rfl, rfl, rfl, rfl,
    State.stack_initial_get c, Display.pixel_blank, rfl, rfl⟩⟩
  case font =>
    intro k
    rw [State.byteAt_outside_image c hfits (by omega), unlisted_of_font]
  case rest =>
    intro a _ hfont himage
    rw [State.byteAt_outside_image c hfits himage, unlisted_of_not_font c.font hfont]

end Sys2Proof

/-! PROOFS. Words and instructions, both ways (spec/30_encoding.md): the bytes of a word that decodes, the rows of the
table kept apart by what a word decodes to, and the decoder's refusals as the class list of R74. -/

namespace Sys2Proof

/-! ## The bytes of a word -/

/-- The two bytes of a word that decodes are its instruction, whatever follows (R70, R81). -/
theorem decode_wordBytes {w : Word} {i : Instr} (h : decodeWord w = some i) (rest : List Byte) :
    decode ((wordBytes w).1 :: (wordBytes w).2 :: rest) = .ok (i, rest) := by
  simp only [decode, composeWord_wordBytes, h]

/-- Settles O27: a word is the encoding of an instruction exactly when it decodes to it, and its bytes compose to it. -/
theorem decodeOfEncodeIsInstruction : Obligations.DecodeOfEncodeIsInstruction := by
  unfold Obligations.DecodeOfEncodeIsInstruction
  exact fun i => ⟨decodeWord_encode i, decode_wordBytes (decodeWord_encode i)⟩

/-- Settles O28: class by class, a word is put together from its fields. -/
theorem encodeOfDecodeIsWord : Obligations.EncodeOfDecodeIsWord := by
  unfold Obligations.EncodeOfDecodeIsWord
  exact fun _ _ => encode_of_decodeWord

/-! ## The rows of the table -/

theorem opcodeTable_nodup : opcodeTable.Nodup := by decide

/-- A word decodes to one instruction, and the instruction has one row. -/
theorem row_unique {w : Word} {r q : OpcodeRow} (hr : r ∈ opcodeTable) (hq : q ∈ opcodeTable)
    (hwr : w &&& r.mask = r.pat) (hwq : w &&& q.mask = q.pat) : r = q := by
  obtain ⟨i, hi, rfl⟩ := decodeWord_of_fits_row hr hwr
  obtain ⟨j, hj, rfl⟩ := decodeWord_of_fits_row hq hwq
  rw [Option.some.inj (hi.symm.trans hj)]

/-- Settles O30: two rows that one word fits are the row of one instruction, and the table lists no row twice. -/
theorem noWordFitsTwoRows : Obligations.NoWordFitsTwoRows := by
  unfold Obligations.NoWordFitsTwoRows
  exact opcodeTable_nodup.imp_of_mem fun hr hq hne w hwr hwq => hne (row_unique hr hq hwr hwq)

/-! ## The illegal words -/

theorem decodeClass8_eq_none_iff (w : Word) :
    decodeClass8 w = none ↔ (decide (bits w 3 0 ≤ 7) || bits w 3 0 == 0xE) = false := by
  unfold decodeClass8
  split
  case h_10 =>
    simp only [imp_false] at *
    simp only [true_iff, Bool.or_eq_false_iff, decide_eq_false_iff_not, beq_eq_false_iff_ne]
    omega
  all_goals simp [*]

theorem decodeClassE_eq_none_iff (w : Word) :
    decodeClassE w = none ↔ [0x9E, 0xA1].contains (bits w 7 0) = false := by
  unfold decodeClassE
  split <;> simp_all

theorem decodeClassF_eq_none_iff (w : Word) : decodeClassF w = none ↔
    [0x07, 0x0A, 0x15, 0x18, 0x1E, 0x29, 0x33, 0x55, 0x65].contains (bits w 7 0) = false := by
  unfold decodeClassF
  split <;> simp_all

/-- The numbers the class list of R74 looks at are the fields of R71. -/
theorem classNumbers_eq_fields (w : Word) :
    w.toNat / 0x1000 = fieldOp w ∧ w.toNat % 0x10 = bits w 3 0 ∧ w.toNat % 0x100 = bits w 7 0 := by
  have := w.isLt
  simp only [fieldOp, bits]
  omega

/-- Settles O31: class by class; the classes without an illegal word always decode. -/
theorem decoderRefusesExactlyIllegalWords : Obligations.DecoderRefusesExactlyIllegalWords := by
  unfold Obligations.DecoderRefusesExactlyIllegalWords
  intro w
  obtain ⟨hop, hn, hnn⟩ := classNumbers_eq_fields w
  have hlt : fieldOp w < 16 := Nat.mod_lt _ (by decide)
  unfold decodeWord wellFormedWord
  rw [hop, hn, hnn]
  split
  case h_1 h =>
    simp only [h]
    by_cases hcls : w = 0x00E0#16 <;> by_cases hret : w = 0x00EE#16 <;> simp [hcls, hret]
  case h_6 h | h_10 h => simp [h]
  case h_9 h => simpa only [h] using decodeClass8_eq_none_iff w
  case h_15 h => simpa only [h] using decodeClassE_eq_none_iff w
  case h_16 h => simpa only [h] using decodeClassF_eq_none_iff w
  case h_17 => simp only [imp_false] at *; omega
  all_goals simp [*]

/-- Settles O32: each word is evaluated. -/
theorem specWordsDecodeAsWritten : Obligations.SpecWordsDecodeAsWritten := by
  unfold Obligations.SpecWordsDecodeAsWritten
  decide

end Sys2Proof

/-! PROOFS. A cycle of a running core (spec/40_cycle.md R92, R93, R96): what a step answers by what stands at the pc, read
both ways, and from it the waiting cycle, the placed word, and what errors leave (spec/60_exceptions.md). -/

namespace Sys2Proof.Machine

/-! ## A step, by what stands at the pc -/

theorem finishCycle_ne_refused {r : Result} (h : ∀ q, r ≠ .refused q) (q : Refusal) : finishCycle r ≠ .refused q := by
  cases r
  case next | fault => exact nofun
  case refused q' => exact absurd rfl (h q')

/-- A running core runs the rest of the cycle with the timers ticked (R92). -/
theorem step_of_running {s : State} (hs : s.status = .running) : step s = runCycle s.ticked := by
  rw [← timerStep_eq_ticked]
  simp only [step, hs]

theorem step_of_noFetch {s : State} (hs : s.status = .running) (hpc : 4096 < s.pc.toNat + 2) :
    step s = .fault (.outOfBounds { s.ticked with status := .halted .outOfBounds ⟨s.pc, none, none⟩ }) := by
  have hfetch : s.ticked.fetchWord = none := (State.fetchWord_eq_none_iff _).2 hpc
  rw [step_of_running hs, runCycle, hfetch]
  rfl

theorem step_of_illegalWord {s : State} (hs : s.status = .running) (hpc : s.pc.toNat + 2 ≤ 4096)
    (hdecode : decodeWord s.wordAtPc = none) :
    step s = .fault (.unknownInstruction { s.ticked with
      pc := s.pc + 2, status := .halted .unknownInstruction ⟨s.pc, some s.wordAtPc, none⟩ }) := by
  have hfetch : s.ticked.fetchWord = some s.wordAtPc := (State.fetchWord_eq_some_iff _ _).2 ⟨hpc, rfl⟩
  simp only [step_of_running hs, runCycle, hfetch, hdecode]
  rfl

theorem step_of_decode {s : State} {i : Instr} (hs : s.status = .running) (hpc : s.pc.toNat + 2 ≤ 4096)
    (hdecode : decodeWord s.wordAtPc = some i) : step s = finishCycle (exec i s.ticked.advancePc) := by
  have hfetch : s.ticked.fetchWord = some s.wordAtPc := (State.fetchWord_eq_some_iff _ _).2 ⟨hpc, rfl⟩
  simp only [step_of_running hs, runCycle, hfetch, hdecode]

/-- A pc at which a fetch fits is advanced without wrap. -/
theorem State.advancePc_pc_toNat {s : State} (h : s.pc.toNat + 2 ≤ 4096) : s.advancePc.pc.toNat = s.pc.toNat + 2 := by
  rw [State.advancePc_pc]
  bv_omega

/-- A step that completes ran an instruction of a running core, and then ended the cycle (R92, R101). -/
theorem step_next_cases {s t : State} (h : step s = .next t) :
    s.status = .running ∧ s.pc.toNat + 2 ≤ 4096 ∧
      ∃ i u, exec i s.ticked.advancePc = .next u ∧ t = u.endCycle := by
  rcases hs : s.status with _ | ⟨e, info⟩
  case halted => exact nomatch (step_of_halted hs).symm.trans h
  by_cases hpc : s.pc.toNat + 2 ≤ 4096
  · rcases hdecode : decodeWord s.wordAtPc with _ | i
    · exact nomatch (step_of_illegalWord hs hpc hdecode).symm.trans h
    · obtain ⟨u, hu, ht⟩ := (finishCycle_eq_next_iff _ _).1 ((step_of_decode hs hpc hdecode).symm.trans h)
      exact ⟨rfl, hpc, i, u, hu, ht⟩
  · exact nomatch (step_of_noFetch hs (Nat.lt_of_not_le hpc)).symm.trans h

/-- A core that an error has halted reports the fault that left it (R91). -/
theorem step_left_of_halted {f : Fault} {info : ErrorInfo} (h : f.left.status = .halted f.error info) :
    step f.left = .fault f := by
  rw [step_of_halted h, ← f.eq_ofError]

/-! ## The errors of an instruction -/

/-- The "raised by" column of R200. -/
theorem Raises.raisedBy {i : Instr} {s : State} {e : CycleError} {detail : Option Nat} (h : Raises i s e detail) :
    (e = .stackOverflow ∧ ∃ nnn, i = .call nnn) ∨
    (e = .dataOutOfBounds ∧ ((∃ x y n, i = .drw x y n) ∨ ∃ x, i = .ldB x ∨ i = .ldMemVx x ∨ i = .ldVxMem x)) ∨
    (e = .fontWrite ∧ ∃ x, i = .ldB x ∨ i = .ldMemVx x) := by
  cases i
  case call nnn =>
    obtain ⟨-, he, -⟩ := h
    exact Or.inl ⟨he, nnn, rfl⟩
  case drw x y n =>
    obtain ⟨a, -, he, -⟩ := h
    exact Or.inr (Or.inl ⟨he, Or.inl ⟨x, y, n, rfl⟩⟩)
  case ldVxMem x =>
    obtain ⟨a, -, he, -⟩ := h
    exact Or.inr (Or.inl ⟨he, Or.inr ⟨x, Or.inr (Or.inr rfl)⟩⟩)
  case ldB x =>
    obtain ⟨a, -, rfl, hfail⟩ := h
    rcases writeError_cases hfail.not_ok with ⟨he, -⟩ | ⟨he, -⟩
    · exact Or.inr (Or.inl ⟨he, Or.inr ⟨x, Or.inl rfl⟩⟩)
    · exact Or.inr (Or.inr ⟨he, x, Or.inl rfl⟩)
  case ldMemVx x =>
    obtain ⟨a, -, rfl, hfail⟩ := h
    rcases writeError_cases hfail.not_ok with ⟨he, -⟩ | ⟨he, -⟩
    · exact Or.inr (Or.inl ⟨he, Or.inr ⟨x, Or.inr (Or.inl rfl)⟩⟩)
    · exact Or.inr (Or.inr ⟨he, x, Or.inr rfl⟩)
  all_goals exact nomatch h

theorem Raises.ne_outOfBounds {i : Instr} {s : State} {e : CycleError} {detail : Option Nat} (h : Raises i s e detail) :
    e ≠ .outOfBounds := by
  rcases h.raisedBy with ⟨rfl, -⟩ | ⟨rfl, -⟩ | ⟨rfl, -⟩ <;> exact nofun

/-! ## Placing a word -/

/-- The word of a table row decodes as its bytes do (R70). -/
theorem decodeWord_of_decodeTableWord {nbits w : Nat} {i : Instr} (h : decodeTableWord nbits w = some i) :
    decodeWord (tableWord nbits w) = some i := by
  simp only [decodeTableWord, decode, composeWord_wordBytes] at h
  rcases hdecode : decodeWord (tableWord nbits w) with _ | j
  · simp [hdecode] at h
  · simpa [hdecode] using h

/-- The bytes of a word, high byte first, are its number (R51). -/
theorem wordBytes_toNat (w : Word) : (wordBytes w).1.toNat * 0x100 + (wordBytes w).2.toNat = w.toNat := by
  have := w.isLt
  simp only [wordBytes, bits, BitVec.toNat_ofNat]
  omega

theorem State.readyToFetch_fits (s : State) : s.readyToFetch.pc.toNat + 2 ≤ 4096 := by
  by_cases hpc : s.pc.toNat + 2 ≤ 4096
  · simp [State.readyToFetch, fetchFits, memSize, hpc]
  · simp [State.readyToFetch, fetchFits, memSize, hpc, programBase]

theorem State.readyToFetch_pc_of_fits {s : State} (h : s.pc.toNat + 2 ≤ 4096) : s.readyToFetch.pc = s.pc :=
  if_pos (decide_eq_true h)

theorem State.readyToFetch_pc_of_noFetch {s : State} (h : 4096 < s.pc.toNat + 2) : s.readyToFetch.pc = 0x200 :=
  if_neg fun hfits => absurd (of_decide_eq_true hfits) (Nat.not_le.2 h)

section PlaceWord

variable {s : State} (hs : s.memOk) (hpc : s.pc.toNat + 2 ≤ 4096) (w : Word)
include hs hpc

theorem State.byteAt_placeWord_high : (s.placeWord w).byteAt s.pc.toNat = (wordBytes w).1 :=
  State.byteAt_store_of_getElem? (k := 0) hs hpc rfl

theorem State.byteAt_placeWord_low : (s.placeWord w).byteAt (s.pc.toNat + 1) = (wordBytes w).2 :=
  State.byteAt_store_of_getElem? (k := 1) hs hpc rfl

theorem State.placeWord_keepsOutside : KeepsBytesOutside s.pc.toNat 2 s (s.placeWord w) :=
  State.store_keepsOutside hs s.pc.toNat [(wordBytes w).1, (wordBytes w).2] hpc

/-- The next fetch reads the placed word (R51, R55). -/
theorem State.wordAtPc_placeWord : (s.placeWord w).wordAtPc = w := by
  apply BitVec.eq_of_toNat_eq
  have hw := w.isLt
  have hpc' : (s.placeWord w).pc = s.pc := rfl
  rw [State.wordAtPc, hpc', State.byteAt_placeWord_high hs hpc, State.byteAt_placeWord_low hs hpc, wordBytes_toNat,
    BitVec.toNat_ofNat, Nat.mod_eq_of_lt hw]

end PlaceWord

end Sys2Proof.Machine

namespace Sys2Proof

open Machine

/-- Settles O33: the answers of a step by what stands at the pc. -/
theorem cycleRunsFourSteps : Obligations.CycleRunsFourSteps := by
  unfold Obligations.CycleRunsFourSteps
  refine fun s => ⟨fun _ _ => step_of_halted, fun hs => ⟨step_of_noFetch hs, step_of_illegalWord hs,
    fun hpc i hdecode => ⟨fun t ht => ?_, fun f hf => ?_⟩⟩⟩
  · exact (step_of_decode hs hpc hdecode).trans (congrArg finishCycle ht)
  · exact (step_of_decode hs hpc hdecode).trans (congrArg finishCycle hf)

/-- Settles O26: the wait takes the two back that the fetch has added to the pc, and writes nothing else. -/
theorem waitingCycleKeepsPcAndTicks : Obligations.WaitingCycleKeepsPcAndTicks := by
  unfold Obligations.WaitingCycleKeepsPcAndTicks
  intro x s hs hpc hdecode hkeys
  have hwait := exec_ldVxK_of_no_key (s := s.ticked.advancePc) x hkeys
  refine ⟨_, (step_of_decode hs hpc hdecode).trans (congrArg finishCycle hwait), ?_, rfl, rfl, rfl, rfl, rfl, rfl, rfl,
    rfl⟩
  exact BitVec.add_sub_cancel s.pc 2

/-- Settles O35: the placed word is the one at the pc of a running core, so the step runs it. -/
theorem placedWordIsFetchedAndRun : Obligations.PlacedWordIsFetchedAndRun := by
  unfold Obligations.PlacedWordIsFetchedAndRun
  intro s nbits w i hs hdecode
  have hfits := s.readyToFetch_fits
  have hmem : s.readyToFetch.memOk := hs
  have hrun := step_of_decode (s := s.withFetchWord nbits w) rfl hfits
    ((congrArg decodeWord (State.wordAtPc_placeWord hmem hfits _)).trans (decodeWord_of_decodeTableWord hdecode))
  have hpc : (s.withFetchWord nbits w).ticked.advancePc.pc.toNat = s.readyToFetch.pc.toNat + 2 :=
    State.advancePc_pc_toNat hfits
  refine ⟨(s.withFetchWord nbits w).ticked.advancePc, rfl, fun h => ?_, fun h => ?_, ?_, ?_, hrun⟩
  · exact congrArg (· + 2) (State.readyToFetch_pc_of_fits h)
  · exact congrArg (· + 2) (State.readyToFetch_pc_of_noFetch h)
  · rw [hpc, ← wordBytes_toNat (tableWord nbits w), ← State.byteAt_placeWord_high hmem hfits,
      ← State.byteAt_placeWord_low hmem hfits]
    rfl
  · rw [hpc]
    exact State.placeWord_keepsOutside hmem hfits (tableWord nbits w)

/-- Settles O37: an error of a halted core is the one that halted it, and an error of a running core halts it. -/
theorem faultedCoreNeverRunsAgain : Obligations.FaultedCoreNeverRunsAgain := by
  unfold Obligations.FaultedCoreNeverRunsAgain
  intro s f h
  have hhalted : ∃ info, f.left.status = .halted f.error info := by
    rcases hs : s.status with _ | ⟨e, info⟩
    · rcases step_fault_cases hs h with ⟨-, rfl⟩ | ⟨-, ⟨-, rfl⟩ | ⟨i, e, detail, -, -, rfl⟩⟩
      all_goals exact ⟨_, by rw [Fault.left_ofError, Fault.error_ofError]⟩
    · obtain rfl := Host.Outcome.fault.inj ((step_of_halted hs).symm.trans h)
      exact ⟨info, by rw [Fault.left_ofError, Fault.error_ofError, hs]⟩
  obtain ⟨info, hinfo⟩ := hhalted
  exact ⟨⟨info, hinfo⟩, step_left_of_halted hinfo⟩

/-- Settles O38: by the faults of a running core; no instruction raises OutOfBounds. -/
theorem errorsArePrecise : Obligations.ErrorsArePrecise := by
  unfold Obligations.ErrorsArePrecise
  intro s f hs h
  rcases step_fault_cases hs h with ⟨-, rfl⟩ | ⟨-, ⟨-, rfl⟩ | ⟨i, e, detail, -, hraises, rfl⟩⟩
  · exact ⟨_, rfl⟩
  · exact ⟨_, rfl⟩
  · refine ⟨⟨s.pc, some s.wordAtPc, detail⟩, ?_⟩
    rw [Fault.left_ofError, Fault.error_ofError, if_neg hraises.ne_outOfBounds]
    rfl

/-- Settles O40: by what each instruction raises. -/
theorem instructionsRaiseOnlyTheirErrors : Obligations.InstructionsRaiseOnlyTheirErrors := by
  unfold Obligations.InstructionsRaiseOnlyTheirErrors
  intro i s f h
  obtain ⟨e, detail, hraises, rfl⟩ := exec_fault_cases h
  rw [Fault.error_ofError]
  rcases hraises.raisedBy with ⟨rfl, hi⟩ | ⟨rfl, hi⟩ | ⟨rfl, hi⟩
  all_goals exact hi

/-- Settles O41: a step ends in a fault of its own or as a meaning does, and no meaning is a refusal. -/
theorem stepIsNeverRefused : Obligations.StepIsNeverRefused := by
  unfold Obligations.StepIsNeverRefused
  intro s r
  rcases step_cases s with ⟨e, info, -, h⟩ | ⟨-, ⟨-, h⟩ | ⟨w, -, ⟨-, h⟩ | ⟨i, -, h⟩⟩⟩
  · rw [h]; exact nofun
  · rw [h]; exact nofun
  · rw [h]; exact nofun
  · rw [h]; exact finishCycle_ne_refused (exec_ne_refused i _) r

end Sys2Proof

/-! PROOFS. What each instruction writes (spec/10_state.md, spec/40_cycle.md R98): the fields an instruction writes, said
once for all of them, and from it the only writers of each field and the only readers of the inputs. -/

namespace Sys2Proof.Machine

/-! ## The fields an instruction writes -/

theorem State.takeKey_eq (s : State) (x : Reg) (keys : List Key) :
    s.takeKey x keys = { s with v := (s.takeKey x keys).v, pc := (s.takeKey x keys).pc } := by
  cases keys <;> rfl

/-- `t` is `s` but for the fields that the instruction writes. -/
def Instr.Frame (i : Instr) (s t : State) : Prop :=
  match i with
  | .cls => t = { s with disp := t.disp }
  | .ret | .call _ => t = { s with pc := t.pc, sp := t.sp, stack := t.stack }
  | .jp _ | .jpV0 _ | .seImm _ _ | .sneImm _ _ | .seReg _ _ | .sneReg _ _ | .skp _ | .sknp _ => t = { s with pc := t.pc }
  | .ldImm _ _ | .addImm _ _ | .ldReg _ _ | .orReg _ _ | .andReg _ _ | .xorReg _ _ | .addReg _ _ | .subReg _ _
  | .shr _ _ | .subn _ _ | .shl _ _ | .rnd _ _ | .ldVxDT _ | .ldVxMem _ => t = { s with v := t.v }
  | .drw _ _ _ => t = { s with v := t.v, disp := t.disp }
  | .ldVxK _ => t = { s with v := t.v, pc := t.pc }
  | .ldI _ | .ldF _ => t = { s with idx := t.idx }
  | .addI _ => t = { s with v := t.v, idx := t.idx }
  | .ldDTVx _ => t = { s with dt := t.dt }
  | .ldSTVx _ => t = { s with st := t.st }
  | .ldB _ | .ldMemVx _ => t = { s with mem := t.mem }

/-- Every meaning writes the fields of its instruction and no other. -/
theorem exec_next_frame {i : Instr} {s t : State} (h : exec i s = .next t) : Instr.Frame i s t := by
  have hc := exec_next_cases h
  cases i
  case ret => obtain rfl : t = s.popPc := hc; exact s.popPc_eq
  case addI x => obtain rfl : t = s.addToIndex x := hc; exact s.addToIndex_eq x
  case ldVxK x => obtain rfl : t = s.takeKey x s.input.keys := hc; exact s.takeKey_eq x _
  case call => obtain ⟨_, rfl⟩ := hc; rfl
  case drw | ldB | ldMemVx | ldVxMem => obtain ⟨_, rfl⟩ := hc; rfl
  all_goals
    simp only at hc
    subst hc
    rfl

section Writers

variable {i : Instr} {s t : State} (h : exec i s = .next t)
include h

/-! ## The writers of each field

For an instruction that is no writer of a field, the frame says that the field is kept. -/

theorem exec_next_disp (hcls : i ≠ .cls) (hdrw : ∀ x y n, i ≠ .drw x y n) : t.disp = s.disp := by
  have hf := exec_next_frame h
  cases i
  case cls => exact absurd rfl hcls
  case drw x y n => exact absurd rfl (hdrw x y n)
  all_goals exact (congrArg State.disp hf :)

theorem exec_next_stack (hret : i ≠ .ret) (hcall : ∀ nnn, i ≠ .call nnn) : t.stack = s.stack ∧ t.sp = s.sp := by
  have hf := exec_next_frame h
  cases i
  case ret => exact absurd rfl hret
  case call nnn => exact absurd rfl (hcall nnn)
  all_goals exact ⟨(congrArg State.stack hf :), (congrArg State.sp hf :)⟩

theorem exec_next_idx (hldI : ∀ nnn, i ≠ .ldI nnn) (hadd : ∀ x, i ≠ .addI x ∧ i ≠ .ldF x) : t.idx = s.idx := by
  have hf := exec_next_frame h
  cases i
  case ldI nnn => exact absurd rfl (hldI nnn)
  case addI x => exact absurd rfl (hadd x).1
  case ldF x => exact absurd rfl (hadd x).2
  all_goals exact (congrArg State.idx hf :)

theorem exec_next_dt (hdt : ∀ x, i ≠ .ldDTVx x) : t.dt = s.dt := by
  have hf := exec_next_frame h
  cases i
  case ldDTVx x => exact absurd rfl (hdt x)
  all_goals exact (congrArg State.dt hf :)

theorem exec_next_st (hst : ∀ x, i ≠ .ldSTVx x) : t.st = s.st := by
  have hf := exec_next_frame h
  cases i
  case ldSTVx x => exact absurd rfl (hst x)
  all_goals exact (congrArg State.st hf :)

theorem exec_next_mem (hmem : ∀ x, i ≠ .ldB x ∧ i ≠ .ldMemVx x) : t.mem = s.mem := by
  have hf := exec_next_frame h
  cases i
  case ldB x => exact absurd rfl (hmem x).1
  case ldMemVx x => exact absurd rfl (hmem x).2
  all_goals exact (congrArg State.mem hf :)

end Writers

/-- A byte reads alike under one configuration in one memory. -/
theorem State.byteAt_congr {s t : State} (hmem : t.mem = s.mem) (hconfig : t.config = s.config) (a : Nat) :
    t.byteAt a = s.byteAt a := by
  rw [State.byteAt, State.byteAt, hmem, hconfig]

/-! ## The writers of VF -/

/-- A register that a register write changes is its destination. -/
theorem State.eq_of_setReg_changes {s : State} {x r : Reg} {b : Byte} (h : (s.setReg x b).reg r ≠ s.reg r) : x = r :=
  by_contra fun hx => h (by rw [State.reg_setReg, if_neg hx])

/-- A register that FX0A changes is its destination. -/
theorem State.eq_of_takeKey_changes {s : State} {x r : Reg} {keys : List Key}
    (h : (s.takeKey x keys).reg r ≠ s.reg r) : x = r := by
  cases keys with
  | nil => exact absurd rfl h
  | cons k rest => exact State.eq_of_setReg_changes h

/-- A register that FX65 changes is one of V0 to Vx. -/
theorem State.le_of_blockLoad_changes {s : State} {x r : Reg}
    (h : (setRegsFrom s.v 0 (s.bytesAtI (x.val + 1))).get r ≠ s.reg r) : r.val ≤ x.val :=
  by_contra fun hr => h (by rw [State.setRegsFrom_bytesAtI_get, if_neg hr])

/-! ## The readers of the inputs -/

/-- The state with other inputs. -/
def State.withInputs (s : State) (ins : List CycleInput) (c : Nat) : State := { s with inputs := ins, cycle := c }

/-- The same answer with other inputs in the state it carries. -/
def resultWithInputs (ins : List CycleInput) (c : Nat) : Result → Result
  | .next t => .next (t.withInputs ins c)
  | .fault f => .fault (Fault.ofError f.error (f.left.withInputs ins c))
  | .refused r => .refused r

section Readers

variable (s : State) (ins : List CycleInput) (c : Nat)

theorem raiseIn_withInputs (i : Instr) (e : CycleError) (detail : Option Nat) :
    raiseIn i e detail (s.withInputs ins c) = resultWithInputs ins c (raiseIn i e detail s) := by
  cases e <;> rfl

/-- An instruction behind a check finds the same under other inputs. -/
theorem exec_guarded_withInputs {s : State} {i : Instr} {check : Option (CycleError × Nat)} {go : State}
    (hexec : exec i s = guarded i check s go)
    (hexec' : exec i (s.withInputs ins c) = guarded i check (s.withInputs ins c) (go.withInputs ins c)) :
    exec i (s.withInputs ins c) = resultWithInputs ins c (exec i s) := by
  rw [hexec, hexec']
  rcases check with _ | ⟨e, a⟩
  · rfl
  · exact raiseIn_withInputs s ins c i e (some a)

theorem State.popPc_withInputs : (s.withInputs ins c).popPc = s.popPc.withInputs ins c := by
  by_cases h : s.sp.val = 0
  · rw [State.popPc_of_empty h]
    exact State.popPc_of_empty h
  · rw [State.popPc, State.popPc, dif_neg h]
    exact dif_neg h

theorem State.addToIndex_withInputs (x : Reg) :
    (s.withInputs ins c).addToIndex x = (s.addToIndex x).withInputs ins c := by
  rcases Nat.lt_or_ge 0xFFF (s.indexSum x) with h | h
  · rw [State.addToIndex_of_overflow h, State.addToIndex_of_overflow (s := s.withInputs ins c) h]
    rfl
  · rw [State.addToIndex_of_noOverflow h, State.addToIndex_of_noOverflow (s := s.withInputs ins c) h, apply_ite
      (State.withInputs · ins c)]
    rfl

theorem exec_call_withInputs (nnn : Addr12) :
    exec (.call nnn) (s.withInputs ins c) = resultWithInputs ins c (exec (.call nnn) s) := by
  by_cases h : s.sp.val < 16
  · rw [exec_call_of_free nnn h, exec_call_of_free (s := s.withInputs ins c) nnn h]
    rfl
  · have hfull : s.sp.val = 16 := by omega
    rw [exec_call_of_full nnn hfull, exec_call_of_full (s := s.withInputs ins c) nnn hfull]
    rfl

/-- A meaning answers the same under other inputs, where the inputs it reads agree (R98). -/
theorem exec_withInputs (i : Instr)
    (hkeys : ReadsKeys i → (s.withInputs ins c).input.keys = s.input.keys)
    (hrand : ReadsRand i → (s.withInputs ins c).input.rand = s.input.rand) :
    exec i (s.withInputs ins c) = resultWithInputs ins c (exec i s) := by
  cases i
  case skp x =>
    have hk := hkeys ⟨x, Or.inl rfl⟩
    simp only [exec, execSkp, hk]
    rfl
  case sknp x =>
    have hk := hkeys ⟨x, Or.inr (Or.inl rfl)⟩
    simp only [exec, execSknp, hk]
    rfl
  case ldVxK x =>
    have hk := hkeys ⟨x, Or.inr (Or.inr rfl)⟩
    simp only [exec, execLdVxK, hk]
    cases s.input.keys <;> rfl
  case rnd x nn =>
    have hr := hrand ⟨x, nn, rfl⟩
    simp only [exec, execRnd, hr]
    rfl
  case ret => exact congrArg Host.Outcome.next (s.popPc_withInputs ins c)
  case addI x => exact congrArg Host.Outcome.next (s.addToIndex_withInputs ins c x)
  case call nnn => exact exec_call_withInputs s ins c nnn
  case drw | ldB | ldMemVx | ldVxMem => exact exec_guarded_withInputs ins c rfl rfl
  all_goals rfl

end Readers

end Sys2Proof.Machine

namespace Sys2Proof

open Machine

/-- Settles O42: the writers of the display, and of the stack with SP. -/
theorem displayAndStackHaveOnlyTheirWriters : Obligations.DisplayAndStackHaveOnlyTheirWriters := by
  unfold Obligations.DisplayAndStackHaveOnlyTheirWriters
  exact fun i s t h => ⟨exec_next_disp h, exec_next_stack h⟩

/-- Settles O43: the writers of I, of each timer, and of memory; no instruction changes FONT. -/
theorem indexTimersAndMemoryHaveOnlyTheirWriters : Obligations.IndexTimersAndMemoryHaveOnlyTheirWriters := by
  unfold Obligations.IndexTimersAndMemoryHaveOnlyTheirWriters
  intro i s t h
  obtain ⟨-, hconfig, -, -⟩ := exec_next_keeps h
  exact ⟨exec_next_idx h, exec_next_dt h, exec_next_st h,
    fun hmem => State.byteAt_congr (exec_next_mem h hmem) hconfig⟩

/-- Settles O44: the instructions with a flag are writers of it, those with a register destination write VF where that
is VF, and the others write no register. -/
theorem flagHasOnlyItsWriters : Obligations.FlagHasOnlyItsWriters := by
  unfold Obligations.FlagHasOnlyItsWriters
  intro i s t h hVF
  have hf := exec_next_frame h
  have hc := exec_next_cases h
  cases i
  case addReg | subReg | shr | subn | shl | drw | addI => simp
  case ldImm | addImm | rnd | ldReg | orReg | andReg | xorReg | ldVxDT =>
    simp only at hc
    subst hc
    obtain rfl := State.eq_of_setReg_changes hVF
    simp
  case ldVxK x =>
    simp only at hc
    subst hc
    obtain rfl := State.eq_of_takeKey_changes hVF
    simp
  case ldVxMem x =>
    obtain ⟨-, rfl⟩ := hc
    obtain rfl : x = VF := Fin.le_antisymm (Fin.le_last x) (State.le_of_blockLoad_changes hVF)
    simp
  all_goals exact absurd (congrArg (State.reg · VF) hf :) hVF

/-- Settles O45: the answer under other inputs is the answer with them put into the state it carries. -/
theorem inputsAreReadOnlyByTheirReaders : Obligations.InputsAreReadOnlyByTheirReaders := by
  unfold Obligations.InputsAreReadOnlyByTheirReaders
  intro i s ins c hkeys hrand
  have hsame := exec_withInputs s ins c i hkeys hrand
  refine ⟨fun t ht => ?_, fun f hf => ⟨_, hsame.trans (congrArg _ hf), ?_, ?_⟩⟩
  · exact hsame.trans (congrArg _ ht)
  · exact Fault.error_ofError _ _
  · exact Fault.left_ofError _ _

end Sys2Proof

/-! PROOFS. Memory (spec/20_memory.md): canonical lists that read alike, what an instruction can do to memory at all, and
the font region, which no step changes. -/

namespace Sys2Proof.Machine

/-! ## Canonical lists that read alike -/

theorem Memory.read_cons_same (font : Vector Byte 80) (k : Nat) (v : Byte) (rest : Memory) :
    Memory.read font ((k, v) :: rest) k = v := by
  simp [Memory.read, Memory.lookup]

theorem Memory.read_cons_of_ne (font : Vector Byte 80) {k a : Nat} (h : a ≠ k) (v : Byte) (rest : Memory) :
    Memory.read font ((k, v) :: rest) a = Memory.read font rest a := by
  simp [Memory.read, Memory.lookup, h]

section Canonical

variable {font : Vector Byte 80} {low k : Nat} {v : Byte} {m m' rest : Memory}

/-- Below its first address a canonical memory reads as one that lists nothing. -/
theorem Memory.CanonFrom.read_of_lt (h : Memory.CanonFrom font low m) (hk : k < low) :
    Memory.read font m k = unlisted font k := by
  rw [Memory.read, Memory.lookup_eq_none h hk]
  rfl

/-- A memory that lists nothing below or at an address differs there from one that lists it first. -/
theorem Memory.CanonFrom.read_ne_of_lt (h : Memory.CanonFrom font low ((k, v) :: rest))
    (h' : Memory.CanonFrom font (k + 1) m') : Memory.read font ((k, v) :: rest) k ≠ Memory.read font m' k := by
  obtain ⟨-, -, hv, -⟩ := Memory.CanonFrom.cons_iff.1 h
  rwa [Memory.read_cons_same, h'.read_of_lt (Nat.lt_succ_self k)]

/-- By the first entries: with different addresses, the memories differ at the lower one. -/
theorem Memory.CanonFrom.eq_of_read_eq (h : Memory.CanonFrom font low m) (h' : Memory.CanonFrom font low m')
    (hread : ∀ a, Memory.read font m a = Memory.read font m' a) : m = m' := by
  induction m generalizing low m' with
  | nil =>
    cases m' with
    | nil => rfl
    | cons c' rest' => exact absurd (hread c'.1).symm (h'.read_ne_of_lt ⟨rfl, by simp⟩)
  | cons c rest ih =>
    obtain ⟨k, v⟩ := c
    cases m' with
    | nil => exact absurd (hread k) (h.read_ne_of_lt ⟨rfl, by simp⟩)
    | cons c' rest' =>
      obtain ⟨k', v'⟩ := c'
      obtain ⟨-, hk, hv, hrest⟩ := Memory.CanonFrom.cons_iff.1 h
      obtain ⟨-, hk', hv', hrest'⟩ := Memory.CanonFrom.cons_iff.1 h'
      rcases Nat.lt_trichotomy k k' with hlt | rfl | hgt
      · have hright := Memory.CanonFrom.cons_iff.2 ⟨Nat.succ_le_of_lt hlt, hk', hv', hrest'⟩
        exact absurd (hread k) (h.read_ne_of_lt hright)
      · have hvv : v = v' := by simpa only [Memory.read_cons_same] using hread k
        have hrests : rest = rest' := ih hrest hrest' fun a => by
          by_cases ha : a = k
          · rw [ha, hrest.read_of_lt (Nat.lt_succ_self k), hrest'.read_of_lt (Nat.lt_succ_self k)]
          · simpa only [Memory.read_cons_of_ne font ha] using hread a
        rw [hvv, hrests]
      · have hleft := Memory.CanonFrom.cons_iff.2 ⟨Nat.succ_le_of_lt hgt, hk, hv, hrest⟩
        exact absurd (hread k').symm (h'.read_ne_of_lt hleft)

end Canonical

/-! ## What an instruction can do to memory -/

/-- An instruction leaves memory as it was, or stores bytes from I on where all of them may be written (R53, R54). -/
theorem exec_next_mem_cases {i : Instr} {s t : State} (h : exec i s = .next t) :
    t.mem = s.mem ∨ ∃ bytes : List Byte, 0 < bytes.length ∧
      (∀ k, k < bytes.length → Writable (s.dataBase + k)) ∧ t.mem = (s.store s.dataBase bytes).mem := by
  by_cases hmem : ∀ x, i ≠ .ldB x ∧ i ≠ .ldMemVx x
  · exact Or.inl (exec_next_mem h hmem)
  · have hc := exec_next_cases h
    obtain ⟨x, rfl | rfl⟩ : ∃ x, i = .ldB x ∨ i = .ldMemVx x := by
      simpa only [not_forall, not_and_or, not_not] using hmem
    · obtain ⟨hw, rfl⟩ := hc
      exact Or.inr ⟨bcdDigits (s.reg x), Nat.succ_pos 2, hw, rfl⟩
    · obtain ⟨hw, rfl⟩ := hc
      exact Or.inr ⟨s.regsTo x, by rw [s.regsTo_length]; exact x.val.succ_pos, by rwa [s.regsTo_length], rfl⟩

/-- What may be written lies outside the font region. -/
theorem Writable.inFont_eq_false {a : Nat} (h : Writable a) : inFont a = false := by
  obtain ⟨-, hfont⟩ := h
  exact (inFont_eq_false_iff a).2 hfont

/-- A range that may be written does not meet the font region. -/
theorem not_mem_range_of_font {base count a : Nat} (hw : ∀ k, k < count → Writable (base + k))
    (hlow : 0x050 ≤ a) (hhigh : a ≤ 0x09F) : ¬ (base ≤ a ∧ a < base + count) := by
  rintro ⟨hbase, hend⟩
  obtain ⟨-, hfont⟩ := hw (a - base) (by omega)
  omega

section Exec

variable {i : Instr} {s t : State} (h : exec i s = .next t)
include h

theorem exec_next_memOk (hs : s.memOk) : t.memOk := by
  obtain ⟨-, hconfig, -, -⟩ := exec_next_keeps h
  rw [State.memOk, hconfig]
  rcases exec_next_mem_cases h with hmem | ⟨bytes, hpos, hw, hmem⟩
  · rwa [hmem]
  · rw [hmem]
    exact Memory.writeBytes_wf hs s.dataBase bytes (range_le_memSize_of_writable hpos hw)

theorem exec_next_fontOk (hs : s.fontOk) : t.fontOk := by
  rw [State.fontOk]
  rcases exec_next_mem_cases h with hmem | ⟨bytes, -, hw, hmem⟩
  · rwa [hmem]
  · rw [hmem]
    exact Memory.writeBytes_fontFree hs s.dataBase bytes fun k hk => (hw k hk).inFont_eq_false

theorem exec_next_keeps_font (hs : s.memOk) {a : Nat} (hlow : 0x050 ≤ a) (hhigh : a ≤ 0x09F) :
    t.byteAt a = s.byteAt a := by
  obtain ⟨-, hconfig, -, -⟩ := exec_next_keeps h
  rcases exec_next_mem_cases h with hmem | ⟨bytes, hpos, hw, hmem⟩
  · exact State.byteAt_congr hmem hconfig a
  · calc t.byteAt a = (s.store s.dataBase bytes).byteAt a := State.byteAt_congr hmem hconfig a
      _ = s.byteAt a := State.store_keepsOutside hs s.dataBase bytes (range_le_memSize_of_writable hpos hw) a
          (not_mem_range_of_font hw hlow hhigh)

end Exec

end Sys2Proof.Machine

namespace Sys2Proof

open Machine

/-- Settles O52: the two lists have the same entries, first by first. -/
theorem canonicalMemoriesReadAlikeAreEqual : Obligations.CanonicalMemoriesReadAlikeAreEqual := by
  unfold Obligations.CanonicalMemoriesReadAlikeAreEqual
  exact fun _ _ _ h h' => (Memory.wf_iff.1 h).eq_of_read_eq (Memory.wf_iff.1 h')

/-- Settles O46: the timers, the pc and the inputs are no memory, and an instruction writes outside the font region. -/
theorem stepKeepsConfigAndFontBytes : Obligations.StepKeepsConfigAndFontBytes := by
  unfold Obligations.StepKeepsConfigAndFontBytes
  intro s t hs h
  obtain ⟨-, -, i, u, hu, rfl⟩ := step_next_cases h
  obtain ⟨-, hconfig, -, -⟩ := exec_next_keeps hu
  exact ⟨hconfig, fun a hlow hhigh => exec_next_keeps_font hu hs hlow hhigh⟩

end Sys2Proof

/-! PROOFS. The invariant (spec/10_state.md R26, R29, R38): it holds after a load, every step keeps it, part by part, and
so it holds in every state that a run reaches. -/

namespace Sys2Proof.Machine

/-! ## After a load -/

theorem State.initial_inv (c : Config) : (State.initial c).Inv where
  mem := State.initial_memOk c
  font := List.forall_mem_nil _
  index := Nat.zero_le _
  pc := (by decide : programBase ≤ 0x10FE)
  stack k := by simp [State.stack_initial_get]

/-- The image lies in memory and outside the font region. -/
theorem writable_of_image {len k : Nat} (h : len ≤ maxProgram) (hk : k < len) : Writable (programBase + k) := by
  simp only [maxProgram, memSize, programBase, Writable] at *
  omega

/-- Storing bytes where they may be written keeps the invariant. -/
theorem State.Inv.store {s : State} (h : s.Inv) {base : Nat} {bytes : List Byte} (hb : base + bytes.length ≤ memSize)
    (hw : ∀ k, k < bytes.length → Writable (base + k)) : (s.store base bytes).Inv where
  mem := Memory.writeBytes_wf h.mem base bytes hb
  font := Memory.writeBytes_fontFree h.font base bytes fun k hk => (hw k hk).inFont_eq_false
  index := h.index
  pc := h.pc
  stack := h.stack

/-- A load that succeeds had an image that fits, and stored it over the initial state (R230). -/
theorem load_ok_cases {c : Config} {rom : List Byte} {s : State} (h : load c rom = .ok s) :
    rom.length ≤ maxProgram ∧ s = (State.initial c).store programBase rom := by
  rcases Nat.eq_zero_or_pos rom.length with h0 | hpos
  · exact nomatch (load_eq_emptyProgram c h0).symm.trans h
  rcases Nat.lt_or_ge maxProgram rom.length with hlarge | hfits
  · exact nomatch (load_eq_romTooLarge c hlarge).symm.trans h
  · exact ⟨hfits, (Except.ok.inj ((load_eq_ok c hpos hfits).symm.trans h)).symm⟩

/-! ## What an instruction leaves in I, in pc and on the stack

An instruction runs with the pc two past its address, where a fetch has fitted. -/

section Exec

variable {i : Instr} {s t : State}

/-- I is written with an address of 12 bits, a glyph's, or a sum wrapped past 0xFFF (R29, R150 to R152). -/
theorem exec_next_indexOk (h : exec i s = .next t) (hs : s.indexOk) : t.indexOk := by
  have hc := exec_next_cases h
  rw [State.indexOk] at *
  cases i
  case ldI nnn =>
    obtain rfl : t = { s with idx := zextAddr nnn } := hc
    have := nnn.isLt
    simp only [zextAddr_toNat]
    omega
  case ldF x =>
    obtain rfl : t = { s with idx := glyphAddress (s.reg x) } := hc
    simp only [glyphAddress_toNat]
    omega
  case addI x =>
    obtain rfl : t = s.addToIndex x := hc
    have hsum : s.indexSum x = s.idx.toNat + (s.reg x).toNat := rfl
    have := (s.reg x).isLt
    rw [s.addToIndex_idx_toNat]
    split <;> omega
  all_goals rwa [exec_next_idx h (by simp) (by simp)]

theorem State.skipIf_pc_toNat_le {s : State} (h : s.pc.toNat ≤ 0x1000) (c : Bool) : (s.skipIf c).pc.toNat ≤ 0x1002 := by
  rw [State.skipIf_pc]
  split
  · bv_omega
  · omega

theorem State.takeKey_pc_toNat_le {s : State} (h : 2 ≤ s.pc.toNat) (x : Reg) (keys : List Key) :
    (s.takeKey x keys).pc.toNat ≤ s.pc.toNat := by
  cases keys with
  | nil =>
    have hpc : (s.takeKey x []).pc = s.pc - 2 := rfl
    rw [hpc]
    bv_omega
  | cons k rest => exact le_rfl

/-- A stack that is not empty has a top entry. -/
theorem State.exists_top {s : State} (h : s.sp.val ≠ 0) : ∃ k : Fin 16, s.sp.val = k.val + 1 :=
  ⟨⟨s.sp.val - 1, by omega⟩, (Nat.sub_one_add_one h).symm⟩

theorem State.popPc_pc_toNat_le {s : State} (hpc : s.pc.toNat ≤ 0x1000) (hs : s.stackOk) :
    s.popPc.pc.toNat ≤ 0x1000 := by
  by_cases h : s.sp.val = 0
  · rwa [State.popPc_of_empty h]
  · obtain ⟨k, hk⟩ := State.exists_top h
    obtain ⟨-, hentry⟩ := hs k
    rwa [State.popPc_of_sp_eq_succ hk]

/-- The highest pc is the one BNNN can reach (R26, R117). -/
theorem exec_next_pcOk (h : exec i s = .next t) (hlow : 2 ≤ s.pc.toNat) (hhigh : s.pc.toNat ≤ 0x1000)
    (hs : s.stackOk) : t.pcOk := by
  have hc := exec_next_cases h
  have hf := exec_next_frame h
  have hskip := State.skipIf_pc_toNat_le hhigh
  rw [State.pcOk]
  cases i
  case seImm | sneImm | seReg | sneReg | skp | sknp =>
    simp only at hc
    subst hc
    exact (hskip _).trans (by decide)
  case jp nnn =>
    obtain rfl : t = s.jump (zextAddr nnn) := hc
    have := nnn.isLt
    simp only [State.jump_pc, zextAddr_toNat]
    omega
  case call nnn =>
    obtain ⟨_, rfl⟩ := hc
    have := nnn.isLt
    simp only [State.jump_pc, zextAddr_toNat]
    omega
  case jpV0 nnn =>
    obtain rfl : t = s.jump (s.offsetTarget nnn) := hc
    have := nnn.isLt
    have := (s.reg 0).isLt
    simp only [State.jump_pc, State.offsetTarget_toNat]
    omega
  case ret =>
    obtain rfl : t = s.popPc := hc
    exact (State.popPc_pc_toNat_le hhigh hs).trans (by decide)
  case ldVxK x =>
    obtain rfl : t = s.takeKey x s.input.keys := hc
    exact ((State.takeKey_pc_toNat_le hlow x _).trans hhigh).trans (by decide)
  all_goals
    have hpc : t.pc = s.pc := (congrArg State.pc hf :)
    rw [hpc]
    exact hhigh.trans (by decide)

/-- A push fills the lowest free entry. -/
theorem State.pushPc_stackOk (hs : s.stackOk) (hpc : s.pc.toNat ≤ 0x1000) (hfree : s.sp.val < 16) :
    (s.pushPc hfree).stackOk := by
  intro j
  obtain ⟨hzero, hle⟩ := hs j
  rw [State.pushPc_sp_val, State.pushPc_stack_get]
  by_cases hj : s.sp.val = j.val
  · rw [if_pos hj]
    exact ⟨fun hlt => absurd hlt (by omega), hpc⟩
  · rw [if_neg hj]
    exact ⟨fun hlt => hzero (by omega), hle⟩

/-- A pop leaves 0 in the entry it frees (R38, R110). -/
theorem State.popPc_stackOk (hs : s.stackOk) : s.popPc.stackOk := by
  by_cases h : s.sp.val = 0
  · rwa [State.popPc_of_empty h]
  · obtain ⟨k, hk⟩ := State.exists_top h
    rw [State.popPc_of_sp_eq_succ hk]
    intro j
    obtain ⟨hzero, hle⟩ := hs j
    simp only [stack_get_set, Fin.val_castSucc]
    by_cases hj : k.val = j.val
    · rw [if_pos hj]
      exact ⟨fun _ => rfl, Nat.zero_le _⟩
    · rw [if_neg hj]
      exact ⟨fun hlt => hzero (by omega), hle⟩

theorem exec_next_stackOk (h : exec i s = .next t) (hpc : s.pc.toNat ≤ 0x1000) (hs : s.stackOk) : t.stackOk := by
  have hc := exec_next_cases h
  by_cases hret : i = .ret
  · subst hret
    obtain rfl : t = s.popPc := hc
    exact State.popPc_stackOk hs
  by_cases hcall : ∃ nnn, i = .call nnn
  · obtain ⟨nnn, rfl⟩ := hcall
    obtain ⟨hfree, rfl⟩ := hc
    exact State.pushPc_stackOk hs hpc hfree
  · obtain ⟨hstack, hsp⟩ := exec_next_stack h hret (not_exists.1 hcall)
    rwa [State.stackOk, hstack, hsp]

/-- An instruction keeps the invariant where its own fetch has fitted. -/
theorem exec_next_inv (h : exec i s = .next t) (hlow : 2 ≤ s.pc.toNat) (hhigh : s.pc.toNat ≤ 0x1000) (hs : s.Inv) :
    t.Inv where
  mem := exec_next_memOk h hs.mem
  font := exec_next_fontOk h hs.font
  index := exec_next_indexOk h hs.index
  pc := exec_next_pcOk h hlow hhigh hs.stack
  stack := exec_next_stackOk h hhigh hs.stack

end Exec

/-! ## A step -/

/-- Timers, status and inputs are no part of the invariant. -/
theorem State.Inv.of_eq {s t : State} (h : s.Inv) (hmem : t.mem = s.mem) (hconfig : t.config = s.config)
    (hidx : t.idx = s.idx) (hpc : t.pc.toNat ≤ 0x10FE) (hstack : t.stack = s.stack) (hsp : t.sp = s.sp) : t.Inv where
  mem := by rw [State.memOk, hmem, hconfig]; exact h.mem
  font := by rw [State.fontOk, hmem]; exact h.font
  index := by rw [State.indexOk, hidx]; exact h.index
  pc := hpc
  stack := by rw [State.stackOk, hstack, hsp]; exact h.stack

theorem State.Inv.advancePc {s : State} (h : s.Inv) (hpc : s.pc.toNat + 2 ≤ 4096) : s.advancePc.Inv :=
  h.of_eq rfl rfl rfl (by rw [State.advancePc_pc_toNat hpc]; omega) rfl rfl

theorem step_next_inv {s t : State} (hs : s.Inv) (h : step s = .next t) : t.Inv := by
  obtain ⟨-, hfits, i, u, hu, rfl⟩ := step_next_cases h
  have hticked : s.ticked.Inv := hs.of_eq rfl rfl rfl hs.pc rfl rfl
  have hpc : s.ticked.advancePc.pc.toNat = s.pc.toNat + 2 := State.advancePc_pc_toNat (s := s.ticked) hfits
  have huInv : u.Inv := exec_next_inv hu (by omega) (by omega) (hticked.advancePc hfits)
  exact huInv.of_eq rfl rfl rfl huInv.pc rfl rfl

/-- An error leaves everything but the timers, the status and the pc, which is advanced where a fetch has fitted. -/
theorem step_fault_inv {s : State} {f : Fault} (hs : s.Inv) (h : step s = .fault f) : f.left.Inv := by
  rcases hstatus : s.status with _ | ⟨e, info⟩
  case halted =>
    obtain rfl := Host.Outcome.fault.inj ((step_of_halted hstatus).symm.trans h)
    rwa [Fault.left_ofError]
  rcases step_fault_cases hstatus h with ⟨-, rfl⟩ | ⟨hfits, ⟨-, rfl⟩ | ⟨i, e, detail, -, -, rfl⟩⟩
  · rw [Fault.left_ofError]
    exact hs.of_eq rfl rfl rfl hs.pc rfl rfl
  all_goals
    rw [Fault.left_ofError]
    exact (hs.advancePc hfits).of_eq rfl rfl rfl (hs.advancePc hfits).pc rfl rfl

theorem step_next_running {s t : State} (h : step s = .next t) : t.status = .running := by
  obtain ⟨hs, -, i, u, hu, rfl⟩ := step_next_cases h
  obtain ⟨hstatus, -, -, -⟩ := exec_next_keeps hu
  exact hstatus.trans hs

end Sys2Proof.Machine

namespace Sys2Proof

open Machine

/-- Settles O50: the next state, part by part of the invariant, and the state an error leaves. -/
theorem stepKeepsInvariant : Obligations.StepKeepsInvariant := by
  unfold Obligations.StepKeepsInvariant
  exact fun s hs => ⟨fun _ => step_next_inv hs, fun _ => step_fault_inv hs⟩

/-- Settles O49: the reset state is the initial state of the default configuration. -/
theorem resetMeetsInvariant : Obligations.ResetMeetsInvariant := by
  unfold Obligations.ResetMeetsInvariant
  exact State.initial_inv defaultConfig

/-- Settles O48: the byte 0 is what its address reads as unlisted, so storing it lists nothing. -/
theorem resetIsLoadOfOneZeroByte : Obligations.ResetIsLoadOfOneZeroByte := by
  unfold Obligations.ResetIsLoadOfOneZeroByte
  rw [load_eq_ok defaultConfig (by decide) (by decide)]
  rfl

/-- Settles O51: by induction on the run, from the load and the steps after it. -/
theorem reachableStatesMeetInvariantAndHoldFont : Obligations.ReachableStatesMeetInvariantAndHoldFont := by
  unfold Obligations.ReachableStatesMeetInvariantAndHoldFont
  intro c s hreach
  induction hreach with
  | load h =>
    obtain ⟨hfits, rfl⟩ := load_ok_cases h
    refine ⟨(State.initial_inv c).store (programBase_add_le_memSize hfits) fun k => writable_of_image hfits, rfl, rfl,
      fun k => ?_⟩
    rw [State.byteAt_outside_image c hfits (by omega), unlisted_of_font]
  | @advance s t inp _ h ih =>
    obtain ⟨hinv, -, hconfig, hfont⟩ := ih
    have hin : (s.withInput inp).Inv := hinv.of_eq rfl rfl rfl hinv.pc rfl rfl
    obtain ⟨hconfig', hbytes⟩ := stepKeepsConfigAndFontBytes (s.withInput inp) t hin.mem h
    refine ⟨step_next_inv hin h, step_next_running h, hconfig'.trans hconfig, fun k => ?_⟩
    exact (hbytes (0x050 + k.val) (by omega) (by omega)).trans (hfont k)

end Sys2Proof

/-! PROOFS. Instructions that undo one another (spec/41_control_flow.md, spec/43_index_memory.md, spec/44_display.md R172),
and the random byte (spec/42_alu.md R141). -/

namespace Sys2Proof.Machine

/-- Writing 0 over a value pushed where 0 stood gives back the stack. -/
theorem stack_set_set_zero {stack : Vector Word 16} {k : Fin 16} (h : stack.get k = 0) (w : Word) :
    (stack.set k.val w).set k.val 0 = stack := by
  apply Vector.ext
  intro j hj
  by_cases hjk : k.val = j
  · subst hjk
    have hk : stack[k.val] = 0 := h
    simp [hk]
  · simp [hjk]

/-- What may be written may be read. -/
theorem Writable.readable {a : Nat} (h : Writable a) : Readable a := by
  obtain ⟨hexists, -⟩ := h
  exact hexists

/-- What DXYN draws on another display than the state's: the sprite is the state's (R171). -/
theorem flips_drawing_of_disp (s : State) (d : Display) (x y : Reg) (n : Nat) :
    Flips (s.spriteCovers ((s.reg x).toNat % 64) ((s.reg y).toNat % 32) n) (d, false)
      ({ s with disp := d }.drawing x y n) := flips_drawing { s with disp := d } x y n

theorem State.drawing_of_disp_hit_iff (s : State) (d : Display) (x y : Reg) (n : Nat) :
    ({ s with disp := d }.drawing x y n).2 = true ↔ ∃ (px : Fin 64) (py : Fin 32), d.pixel px py = true ∧
      s.spriteCovers ((s.reg x).toNat % 64) ((s.reg y).toNat % 32) n px py :=
  State.drawing_hit_iff { s with disp := d } x y n

/-- Flipping the same pixels twice restores the display. -/
theorem Flips.twice {cover : Fin 64 → Fin 32 → Prop} {p q r : Drawing} {hit : Bool} (h : Flips cover p q)
    (h' : Flips cover (q.1, hit) r) : r.1 = p.1 := by
  obtain ⟨hfirst, -⟩ := h
  obtain ⟨hsecond, -⟩ := h'
  apply Display.ext_pixel
  intro px py
  have hiff := (hsecond px py).trans (hfirst px py).symm
  revert hiff
  cases r.1.pixel px py <;> cases q.1.pixel px py <;> cases p.1.pixel px py <;> decide

/-- A lit pixel that a draw has flipped is one that it lit. -/
theorem Flips.lit_iff {cover : Fin 64 → Fin 32 → Prop} {p q : Drawing} (h : Flips cover p q) (px : Fin 64)
    (py : Fin 32) :
    q.1.pixel px py = true ∧ cover px py ↔ p.1.pixel px py = false ∧ q.1.pixel px py = true := by
  obtain ⟨hflipped, -⟩ := h
  rw [← hflipped px py]
  cases q.1.pixel px py <;> cases p.1.pixel px py <;> decide

end Sys2Proof.Machine

namespace Sys2Proof

open Machine

/-- Settles O4: the return pops the entry that the call pushed, which held 0. -/
theorem callThenReturnRestoresPcAndStack : Obligations.CallThenReturnRestoresPcAndStack := by
  unfold Obligations.CallThenReturnRestoresPcAndStack
  intro nnn s t hs h u hstack hsp
  obtain ⟨hfree, rfl⟩ := exec_next_cases h
  obtain ⟨hzero, -⟩ := hs ⟨s.sp.val, hfree⟩
  have husp : u.sp.val = (⟨s.sp.val, hfree⟩ : Fin 16).val + 1 := congrArg Fin.val hsp
  have hustack : u.stack = s.stack.set s.sp.val s.pc hfree := hstack
  have hpop := State.popPc_of_sp_eq_succ husp
  rw [hustack, stack_get_set, if_pos rfl, stack_set_set_zero (hzero le_rfl)] at hpop
  exact congrArg Host.Outcome.next hpop

/-- Settles O19: the load reads, byte by byte, what the store has written. -/
theorem blockStoreThenLoadRestoresRegisters : Obligations.BlockStoreThenLoadRestoresRegisters := by
  unfold Obligations.BlockStoreThenLoadRestoresRegisters
  intro x s t u hs h hmem hconfig hidx
  obtain ⟨hw, rfl⟩ := exec_next_cases h
  have hbase : u.dataBase = s.dataBase := congrArg BitVec.toNat hidx
  have hread : ∀ k, k < x.val + 1 → Readable (u.dataBase + k) := fun k hk => hbase ▸ (hw k hk).readable
  have hfits : s.dataBase + (s.regsTo x).length ≤ memSize := by
    rw [s.regsTo_length]
    exact range_le_memSize_of_writable x.val.succ_pos hw
  refine ⟨_, exec_next_of_readable (i := .ldVxMem x) rfl hread, rfl, fun k hk => ?_⟩
  refine (u.setRegsFrom_bytesAtI_get x k).trans ?_
  rw [if_pos hk, hbase, State.byteAt_congr hmem hconfig]
  exact State.byteAt_store_of_getElem? hs hfits (s.regsTo_getElem? x k hk)

/-- Settles O22: both draws flip the same pixels, and a pixel is lit under the sprite before the second exactly when the
first lit it. -/
theorem drawingTwiceRestoresDisplay : Obligations.DrawingTwiceRestoresDisplay := by
  unfold Obligations.DrawingTwiceRestoresDisplay
  intro x y n s t h
  obtain ⟨hr, rfl⟩ := exec_next_cases h
  have hfirst := flips_drawing s x y n.val
  have hsecond := flips_drawing_of_disp s (s.drawing x y n.val).1 x y n.val
  refine ⟨_, exec_next_of_readable (i := .drw x y n) rfl hr, hfirst.twice hsecond, ?_⟩
  rw [State.setReg_reg_dest, flagByte_eq_one_iff]
  exact (s.drawing_of_disp_hit_iff _ x y n.val).trans
    (exists_congr fun px => exists_congr fun py => hfirst.lit_iff px py)

/-- Settles O12: one register write, of a byte whose bits are the AND of the random byte's and NN's. -/
theorem randomByteIsMasked : Obligations.RandomByteIsMasked := by
  unfold Obligations.RandomByteIsMasked
  intro x nn s
  refine ⟨encodedAs_of_encode (wordXNN_toNat (op := 0xC) (by decide) x nn), _, rfl, s.setReg_eq x _, s.setReg_keeps x _,
    fun i => ?_⟩
  rw [s.setReg_reg_dest, BitVec.getLsbD_and]

end Sys2Proof
